-- ==== Sys2Proof/Word.lean ====
section
/-! DEFINITION. The two value types of the block (00_scope.md R10, R13): bit 0 is the least significant bit. -/

namespace Sys2Proof

/-- A Byte, a value in [0, 255] (R10). -/
abbrev Byte := BitVec 8

/-- A Word32, a value in [0, 2^32 - 1] (R10); also one 32-bit operand lane or sequence element (R11). -/
abbrev Word := BitVec 32

end Sys2Proof
end

