-- ==== Sys2Proof/Syntax.lean ====
section
/-! DEFINITION. The command as it stands on the port, and the five instructions it can spell. -/

namespace Sys2Proof

/-- One sequence operand with the length field that comes first (30_encoding.md R44): LA with SA, or LB with SB. -/
structure SeqLane where
  len   : Nat
  elems : List Word
deriving DecidableEq, Repr, Inhabited

/-- A command in the form in which it is presented (10_state.md R23, 30_encoding.md R56): the fixed part is CMD, X0 to X3,
LA and LB; the variable part `elems` is the elements of SA and then those of SB. -/
structure Command where
  cmd   : Byte
  x0    : Word
  x1    : Word
  x2    : Word
  x3    : Word
  la    : Nat
  lb    : Nat
  elems : List Word
deriving DecidableEq, Repr, Inhabited

/-- The five operations with the operand lanes each of them reads (30_encoding.md R42, R49): one constructor per row of
the opcode table. The lanes stand here as they arrive; masking is the meaning's (R50, R51, R53). -/
inductive Instr where
  /-- ROTL32, CMD 0x01 (40_bitrotate32.md R61): v = X0, s = X1. -/
  | rotl32 (v s : Word)
  /-- PACK32BE, CMD 0x02 (41_bytepack32be.md R67): b0 to b3 from X0 to X3. -/
  | pack32be (b0 b1 b2 b3 : Word)
  /-- BXOR, CMD 0x03 (42_bytexor.md R71): a = SA with LA, b = SB with LB. -/
  | bxor (a b : SeqLane)
  /-- GFMUL, CMD 0x04 (43_gf256multiply.md R76): a from X0, b from X1. -/
  | gfmul (a b : Word)
  /-- TXT2B, CMD 0x05 (44_texttobytes.md R84): the codepoints, SA with LA. -/
  | txt2b (c : SeqLane)
deriving DecidableEq, Repr

end Sys2Proof
end

