-- ==== Sys2Proof/WellFormed.lean ====
section
/-! DEFINITION. What it takes for a command, and for an instruction, to be well formed (10_state.md R23): every length
field is the number of elements that follow. -/

namespace Sys2Proof

/-- `len(SA) = LA`, or `len(SB) = LB` (R23). -/
def SeqLane.wf (q : SeqLane) : Bool := q.len == q.elems.length

/-- Every sequence operand has as many elements as its length field says (R23). -/
def Instr.wf : Instr → Bool
  | .rotl32 _ _ => true
  | .pack32be _ _ _ _ => true
  | .bxor a b => a.wf && b.wf
  | .gfmul _ _ => true
  | .txt2b c => c.wf

/-- The variable part has LA + LB elements (R23, R56). -/
def Command.wf (c : Command) : Bool := c.elems.length == c.la + c.lb

end Sys2Proof
end

