-- ==== Sys2Proof/Decode.lean ====
section
/-! DEFINITION. From a command as presented to an instruction, and back (30_encoding.md R41 to R56). -/

namespace Sys2Proof

/-- CMD[7:3], reserved (R41). -/
def Command.rsv (c : Command) : BitVec 5 := c.cmd.extractLsb' 3 5

/-- CMD[2:0], the operation select (R41). -/
def Command.opc (c : Command) : BitVec 3 := c.cmd.extractLsb' 0 3

/-- SA: the first LA elements of the variable part (R44, R56). -/
def Command.sa (c : Command) : SeqLane := SeqLane.mk c.la (c.elems.take c.la)

/-- SB: the LB elements after SA (R44, R56). -/
def Command.sb (c : Command) : SeqLane := SeqLane.mk c.lb ((c.elems.drop c.la).take c.lb)

/-- The operation names of the opcode map (R42). -/
inductive Op where
  | rotl32
  | pack32be
  | bxor
  | gfmul
  | txt2b
deriving DecidableEq, Repr

/-- Why a command is not decoded. -/
inductive Reject where
  /-- CMD is none of the five legal values (R54): answered with ILLEGAL_COMMAND (60_exceptions.md R89). -/
  | illegalCommand
  /-- The elements presented are not LA + LB many, so this is no well-formed command (R23): no effect is given. Log 10. -/
  | malformedCommand
deriving DecidableEq, Repr

/-- The opcode map (R42); OPC 000, 110 and 111 are reserved. -/
def Op.ofOpc (opc : BitVec 3) : Option Op :=
  match opc.toNat with
  | 1 => some .rotl32
  | 2 => some .pack32be
  | 3 => some .bxor
  | 4 => some .gfmul
  | 5 => some .txt2b
  | _ => none

/-- The operation a command selects; none where CMD is illegal (R41, R54). -/
def Command.op (c : Command) : Option Op :=
  if c.rsv = 0#5 then Op.ofOpc c.opc else none

/-- Operand assembly: the lanes each operation reads (R49), in the order of its arguments. -/
def Op.instr (o : Op) (c : Command) : Instr :=
  match o with
  | .rotl32 => .rotl32 c.x0 c.x1
  | .pack32be => .pack32be c.x0 c.x1 c.x2 c.x3
  | .bxor => .bxor c.sa c.sb
  | .gfmul => .gfmul c.x0 c.x1
  | .txt2b => .txt2b c.sa

/-- The decoder. CMD is checked first and no lane is examined for an illegal one (R89, R92); ignored lanes are not part of
the check (R55). -/
def decode (c : Command) : Except Reject Instr :=
  match c.op with
  | none => .error .illegalCommand
  | some o => if c.wf then .ok (o.instr c) else .error .malformedCommand

/-- The CMD byte of an operation (R42). -/
def Op.cmd : Op → Byte
  | .rotl32 => 0x01#8
  | .pack32be => 0x02#8
  | .bxor => 0x03#8
  | .gfmul => 0x04#8
  | .txt2b => 0x05#8

/-- A command of which every lane is zero and both sequences are empty; `.cmd n` of the assembler (R58). -/
def Command.bare (cmd : Byte) : Command :=
  { cmd := cmd, x0 := 0#32, x1 := 0#32, x2 := 0#32, x3 := 0#32, la := 0, lb := 0, elems := [] }

/-- The encoder: the command of an instruction. "Lanes the mnemonic does not name are encoded as zero" (R57, R58). -/
def encode : Instr → Command
  | .rotl32 v s => { Command.bare (Op.cmd .rotl32) with x0 := v, x1 := s }
  | .pack32be b0 b1 b2 b3 => { Command.bare (Op.cmd .pack32be) with x0 := b0, x1 := b1, x2 := b2, x3 := b3 }
  | .bxor a b => { Command.bare (Op.cmd .bxor) with la := a.len, lb := b.len, elems := a.elems ++ b.elems }
  | .gfmul a b => { Command.bare (Op.cmd .gfmul) with x0 := a, x1 := b }
  | .txt2b c => { Command.bare (Op.cmd .txt2b) with la := c.len, elems := c.elems }

/-- The command in which the opcode table's bits stand: bits 7:0 are CMD; in the order of R56 bits 39:8 are X0 and so on to
X3 in bits 135:104; LA and LB, which the spec gives no width, are zero. The table gives its rows 8 bits. Log 11. -/
def Command.ofTableWord (nbits w : Nat) : Command :=
  let v := w % 2 ^ nbits
  { Command.bare (BitVec.ofNat 8 v) with
    x0 := BitVec.ofNat 32 (v >>> 8), x1 := BitVec.ofNat 32 (v >>> 40),
    x2 := BitVec.ofNat 32 (v >>> 72), x3 := BitVec.ofNat 32 (v >>> 104) }

/-- The instruction that the decoder reads from an instruction whose bits are `w`. -/
def decodeTableWord (nbits w : Nat) : Option Instr :=
  match decode (Command.ofTableWord nbits w) with
  | .ok i => some i
  | .error _ => none

/-- One row of spec/opcode_table.json: CMD matches when `cmd &&& mask = pattern`. -/
structure OpRow where
  mask    : Byte
  pattern : Byte
  op      : Op
deriving DecidableEq, Repr

/-- spec/opcode_table.json, row by row. The decoder follows R41 and R42; Tests show that the two agree. -/
def opTable : List OpRow :=
  [ OpRow.mk 0xFF#8 0x01#8 .rotl32, OpRow.mk 0xFF#8 0x02#8 .pack32be, OpRow.mk 0xFF#8 0x03#8 .bxor,
    OpRow.mk 0xFF#8 0x04#8 .gfmul, OpRow.mk 0xFF#8 0x05#8 .txt2b ]

end Sys2Proof
end

