-- ==== Sys2Proof/Config.lean ====
section
/-! DEFINITION. The parameter of an instance, and the values that the spec leaves free. -/

namespace Sys2Proof

/-- The type of MAX_SEQ_LEN (00_scope.md R12): "a natural number, or `unbounded`". -/
inductive SeqBound where
  | unbounded
  | bounded (n : Nat)
deriving DecidableEq, Repr, Inhabited

/-- The parameter of the instance that State.reset stands for. DESIGN CHOICE (log 6, unsafe): R12 leaves it open;
State holds the parameter, so that no statement about a state depends on this value. -/
def Config.maxSeqLen : SeqBound := .unbounded

/-- What GF256Multiply's accumulator holds between commands: "any value, and unobservable" (93_implementation_defined.md
U8; 10_state.md R26). Log 7. -/
opaque Config.freeStageP : Nat → Byte

/-- What GF256Multiply's multiplicand register holds between commands (U8). Log 7. -/
opaque Config.freeStageA : Nat → Byte

/-- What GF256Multiply's multiplier register holds between commands (U8). Log 7. -/
opaque Config.freeStageB : Nat → Byte

/-- What the lane latches hold between commands (U8; 10_state.md R26). Log 8. -/
opaque Config.freeLatch : Nat → Command

end Sys2Proof
end

