-- ==== Sys2Proof/Machine/State.lean ====
section
/-! DEFINITION. The state of one instance of the block, the response record, and the ways a step can stop. -/

namespace Sys2Proof.Machine

/-- A response, format P (10_state.md R24, 30_encoding.md R45 to R47). -/
structure Response where
  /-- ST, the status (R45). -/
  st : Byte
  /-- R, the scalar result (R46). -/
  r  : Word
  /-- LR, the length of RS (R47). -/
  lr : Nat
  /-- RS, the sequence result (R47). -/
  rs : List Byte
deriving DecidableEq, Repr, Inhabited

/-- The three statuses (30_encoding.md R45, 60_exceptions.md R88). -/
inductive Status where
  | ok
  | illegalCommand
  | lengthExceeded
deriving DecidableEq, Repr

/-- GF256Multiply's stage state: accumulator p, shifting multiplicand a, shifting multiplier b (10_state.md R26,
43_gf256multiply.md R77). -/
structure GfStage where
  p : Byte
  a : Byte
  b : Byte
deriving DecidableEq, Repr, Inhabited

/-- One instance of the block. R17: it keeps no architectural state between commands; what stands here is its two ports, the
internal state that R26 and R101 name, and its parameter. -/
structure State where
  /-- MAX_SEQ_LEN, the parameter of the instance (00_scope.md R12). No command reads it as data or writes it. Log 6. -/
  maxSeqLen : SeqBound
  /-- The command port (R101, R104): the commands presented and not yet answered, oldest first. Empty: idle. Log 2. -/
  commands  : List Command
  /-- The response port (R101, R104): the responses returned and not yet collected, oldest first. Log 3. -/
  responses : List Response
  /-- GF256Multiply's stage state (R26, R77); between commands any value (U8). Log 7. -/
  stage     : GfStage
  /-- The lane latches, which hold the command that was taken whole (R26, R35); between commands any value (U8). Log 8. -/
  latch     : Command
  /-- The MODEL's own counter: the number of the next free value. Log 9. -/
  freeCount : Nat
deriving DecidableEq, Repr

/-- Why the machine stops. -/
inductive Fault where
  /-- Raised by `step` when the command in progress has a legal CMD but is not well formed (10_state.md R23): the spec gives
  it no effect. Safe: the model claims nothing about such a command. Log 10. -/
  | malformedCommand
deriving DecidableEq, Repr

/-- Why a command has no meaning. -/
inductive Refusal where
  /-- Raised by an arm of `exec` whose instruction has no meaning yet; no arm raises it. Safe. -/
  | notModelled (mnemonic : String)
deriving DecidableEq, Repr

/-- An instance with parameter `m` right after reset (70_reset_and_hazards.md R101): command port idle, response port empty.
The stage state and the latches are unspecified there; the zeros are DESIGN CHOICES (logs 7, 8, 9; unsafe). -/
def State.resetOf (m : SeqBound) : State :=
  { maxSeqLen := m
    commands := []
    responses := []
    stage := { p := 0#8, a := 0#8, b := 0#8 }
    latch := { cmd := 0#8, x0 := 0#32, x1 := 0#32, x2 := 0#32, x3 := 0#32, la := 0, lb := 0, elems := [] }
    freeCount := 0 }

/-- The machine right after reset (R101), of the instance that Config names (log 6). -/
def State.reset : State := State.resetOf Config.maxSeqLen

end Sys2Proof.Machine
end

