-- ==== Sys2Proof/Machine/Flags.lean ====
section
/-! DEFINITION. The block has no flags (10_state.md R20); its only status is ST of each response. The codes of ST and the
check that decides it. -/

namespace Sys2Proof.Machine

/-- ST (30_encoding.md R45). -/
def Status.code : Status → Byte
  | .ok => 0x00#8
  | .illegalCommand => 0x01#8
  | .lengthExceeded => 0x02#8

/-- A sequence of `n` elements is longer than MAX_SEQ_LEN; never so when it is unbounded (60_exceptions.md R90). -/
def exceeds (m : SeqBound) (n : Nat) : Bool :=
  match m with
  | .unbounded => false
  | .bounded k => decide (k < n)

end Sys2Proof.Machine
end

