-- ==== Sys2Proof/Machine/Operands.lean ====
section
/-! DEFINITION. How an operation reads its operand lanes (30_encoding.md R50 to R53), and how a host writes an integer into
a lane (R57). -/

namespace Sys2Proof.Machine

/-- `mask8(x) = x[7:0]` (00_scope.md R14): a byte operand or a codepoint (30_encoding.md R51, R53). -/
def mask8 (lane : Word) : Byte := lane.extractLsb' 0 8

/-- The normalised rotation amount `amt = X1[4:0]` (30_encoding.md R50, 40_bitrotate32.md R62). -/
def amount (lane : Word) : BitVec 5 := lane.extractLsb' 0 5

/-- The word operand of ROTL32: the whole lane (30_encoding.md R52). -/
def wordOperand (lane : Word) : Word := lane

/-- The lane value of a host's integer, `n mod 2^32` by the true modulo (30_encoding.md R57; R15, R106). -/
def lane (n : Int) : Word := BitVec.ofInt 32 n

end Sys2Proof.Machine
end

