-- ==== Sys2Proof/Machine/Ops.lean ====
section
/-! DEFINITION. The operations every command is made of: taking it from the port, and answering it. -/

namespace Sys2Proof.Machine

/-- The result type of `exec` and `step`. -/
abbrev Result := Host.Outcome State Fault Refusal

/-- The response with a scalar result: LR = 0 and RS = [] (30_encoding.md R48). -/
def Response.scalar (v : Word) : Response := Response.mk Status.ok.code v 0 []

/-- The response with a sequence result of length `n`: R = 0 (30_encoding.md R48). -/
def Response.sequence (n : Nat) (out : List Byte) : Response := Response.mk Status.ok.code 0#32 n out

/-- The error response: ST = the cause, R = 0, LR = 0 and RS = [] (60_exceptions.md R93). -/
def Response.error (cause : Status) : Response := Response.mk cause.code 0#32 0 []

/-- The internal state between commands is any value (U8, R26): the stage state and the latches take free values. -/
def State.releaseInternal (s : State) : State :=
  { s with
    stage := GfStage.mk (Config.freeStageP s.freeCount) (Config.freeStageA s.freeCount) (Config.freeStageB s.freeCount)
    latch := Config.freeLatch s.freeCount
    freeCount := s.freeCount + 1 }

/-- The command ends: exactly one response, after those of earlier commands (70_reset_and_hazards.md R104). -/
def State.complete (r : Response) (s : State) : State :=
  { s.releaseInternal with responses := s.responses ++ [r] }

/-- `respond(R = v)` (00_scope.md R14). -/
def respondScalar (v : Word) (s : State) : Result := .next (s.complete (.scalar v))

/-- `respond(RS = out)` with LR = n (00_scope.md R14). -/
def respondSequence (n : Nat) (out : List Byte) (s : State) : Result := .next (s.complete (.sequence n out))

/-- `raise <Status>` (00_scope.md R14, 60_exceptions.md R93): the block's whole exception mechanism. There is no vector, no
saved state and no mode, and no return from it either (R94): the next command is taken as after any response. -/
def raiseStatus (cause : Status) (s : State) : Result := .next (s.complete (.error cause))

/-- The block takes the oldest command whole into its latches (20_memory.md R35, 70_reset_and_hazards.md R104); none when
the port is idle. -/
def State.takeCommand (s : State) : Option State :=
  match s.commands with
  | [] => none
  | c :: rest => some { s with commands := rest, latch := c }

/-- What follows when the command taken decodes to no instruction: an illegal CMD gets the ILLEGAL_COMMAND response
(60_exceptions.md R89); a malformed command stops the model by name (log 10). -/
def rejectCommand (why : Reject) (s : State) : Result :=
  match why with
  | .illegalCommand => raiseStatus .illegalCommand s
  | .malformedCommand => .fault .malformedCommand

/-- With no command presented the block does nothing (60_exceptions.md R99: it "never waits on anything but the host's next
command"). Log 5. -/
def idle (s : State) : Result := .next s

end Sys2Proof.Machine
end

