-- ==== Sys2Proof/Machine/Galois.lean ====
section
/-! DEFINITION. GFMUL (43_gf256multiply.md). -/

namespace Sys2Proof.Machine

/-- The GF(2^8) reduction constant (00_scope.md R10, R78; 90_conflicts.md C1, C4). -/
def reductionConstant : Byte := 0x1B#8

/-- The GF(2^8) iteration count (R10, R77). -/
def stageCount : Nat := 8

/-- The stage state a GFMUL starts from: p = 0, a and b the masked operands (R77, 10_state.md R26). -/
def gfStart (a b : Byte) : GfStage := GfStage.mk 0#8 a b

/-- One stage (R77): accumulate a before the shift; shift a and reduce IT, not p, when its top bit goes out (R78); shift b. -/
def gfStage (g : GfStage) : GfStage :=
  { p := g.p ^^^ (if g.b.getLsbD 0 then g.a else 0#8)
    a := (g.a <<< 1) ^^^ (if g.a.getLsbD 7 then reductionConstant else 0#8)
    b := g.b >>> 1 }

/-- `n` stages, one after the other. -/
def gfStages : Nat → GfStage → GfStage
  | 0, g => g
  | n + 1, g => gfStages n (gfStage g)

/-- The stage registers are rebuilt from the operands (10_state.md R26, 70_reset_and_hazards.md R101). -/
def State.loadStage (a b : Byte) (s : State) : State := { s with stage := gfStart a b }

/-- The stage registers run through the stages; the count is fixed, whatever b is (R76). -/
def State.runStages (n : Nat) (s : State) : State := { s with stage := gfStages n s.stage }

/-- Only the final p leaves the block, zero-extended in R (R79, 20_memory.md R32). -/
def respondAccumulator (s : State) : Result := respondScalar (s.stage.p.setWidth 32) s

/-- GFMUL (R76): always responds OK (R82). -/
def execGfmul (a b : Word) (s : State) : Result :=
  respondAccumulator ((s.loadStage (mask8 a) (mask8 b)).runStages stageCount)

end Sys2Proof.Machine
end

