-- ==== Sys2Proof/Machine/Pack.lean ====
section
/-! DEFINITION. PACK32BE (41_bytepack32be.md). -/

namespace Sys2Proof.Machine

/-- R67's contract `(b0<<24)|(b1<<16)|(b2<<8)|b3`, each byte zero-extended first: b0 in bits 31:24, b1 in 23:16, b2 in 15:8
and b3 in 7:0 (R68; 20_memory.md R31). -/
def packBigEndian (b0 b1 b2 b3 : Byte) : Word :=
  (b0.setWidth 32 <<< 24) ||| (b1.setWidth 32 <<< 16) ||| (b2.setWidth 32 <<< 8) ||| b3.setWidth 32

/-- PACK32BE (R67): every lane is masked to its low byte; always responds OK (R69). -/
def execPack32be (b0 b1 b2 b3 : Word) (s : State) : Result :=
  respondScalar (packBigEndian (mask8 b0) (mask8 b1) (mask8 b2) (mask8 b3)) s

end Sys2Proof.Machine
end

