-- ==== Sys2Proof/Machine/Rotate.lean ====
section
/-! DEFINITION. ROTL32 (40_bitrotate32.md). -/

namespace Sys2Proof.Machine

/-- R61: circular left rotation by 0 to 31. For amount 0 the result is v; no 32-bit value is ever shifted by 32 (R63). -/
def rotateLeft (v : Word) (amt : BitVec 5) : Word :=
  if amt = 0#5 then v else (v <<< amt.toNat) ||| (v >>> (32 - amt.toNat))

/-- ROTL32 (R61): always responds OK (R64). -/
def execRotl32 (v s : Word) (st : State) : Result :=
  respondScalar (rotateLeft (wordOperand v) (amount s)) st

end Sys2Proof.Machine
end

