-- ==== Sys2Proof/Machine/Text.lean ====
section
/-! DEFINITION. TXT2B (44_texttobytes.md). -/

namespace Sys2Proof.Machine

/-- R84, R85: the low byte of each codepoint, in order; no other encoding may take its place (R87). -/
def maskCodepoints (c : List Word) : List Byte := c.map mask8

/-- TXT2B (R84): LA is checked, LB is not; then LR = LA (R85). -/
def execTxt2b (c : SeqLane) (s : State) : Result :=
  if exceeds s.maxSeqLen c.len then raiseStatus .lengthExceeded s
  else respondSequence c.len (maskCodepoints c.elems) s

end Sys2Proof.Machine
end

