-- ==== Sys2Proof/Machine/Xor.lean ====
section
/-! DEFINITION. BXOR (42_bytexor.md). -/

namespace Sys2Proof.Machine

/-- R71, R73: a parallel array of 8-bit XORs, one per index, as far as the shorter sequence goes. -/
def xorBytes (a b : List Word) : List Byte := List.zipWith (fun x y => mask8 x ^^^ mask8 y) a b

/-- BXOR (R71): both lengths are checked, the discarded tail's too (D22); then LR = min(LA, LB) (R72). -/
def execBxor (a b : SeqLane) (s : State) : Result :=
  if exceeds s.maxSeqLen a.len || exceeds s.maxSeqLen b.len then raiseStatus .lengthExceeded s
  else respondSequence (min a.len b.len) (xorBytes a.elems b.elems) s

end Sys2Proof.Machine
end

