-- ==== Sys2Proof/Machine/Dispatch.lean ====
section
/-! DEFINITION. One arm per instruction (10_state.md R25: `exec` dispatches on CMD). -/

namespace Sys2Proof.Machine

def exec (i : Instr) (s : State) : Host.Outcome State Fault Refusal :=
  match i with
  | .rotl32 v n => Sys2Proof.Machine.execRotl32 v n s
  | .pack32be b0 b1 b2 b3 => Sys2Proof.Machine.execPack32be b0 b1 b2 b3 s
  | .bxor a b => Sys2Proof.Machine.execBxor a b s
  | .gfmul a b => Sys2Proof.Machine.execGfmul a b s
  | .txt2b c => Sys2Proof.Machine.execTxt2b c s

end Sys2Proof.Machine
end

