-- ==== Sys2Proof/Machine/Step.lean ====
section
/-! DEFINITION. One step: the oldest command on the port is taken whole, decoded, run and answered. -/

namespace Sys2Proof.Machine

/-- R25, R35, R104: one command at a time, taken whole, answered by exactly one response. R92's order: the decoder checks CMD
first, the meaning checks the lengths, the operation then succeeds. Log 4. -/
def step (s : State) : Host.Outcome State Fault Refusal :=
  match s.takeCommand with
  | none => idle s
  | some t =>
    match decode t.latch with
    | .ok i => exec i t
    | .error why => rejectCommand why t

/-- The instruction presented so that the very next step takes it: first on the command port. Log 11. -/
def State.withFetchWord (s : State) (nbits w : Nat) : State :=
  { s with commands := Command.ofTableWord nbits w :: s.commands }

end Sys2Proof.Machine
end

