-- ==== Sys2Proof/Machine/Assembler.lean ====
section
/-! DEFINITION. The host's assembler (30_encoding.md R57 to R59): integers in, a command out. -/

namespace Sys2Proof.Machine

/-- The mnemonics of R58, over a type `α` of scalar operands, `σ` of sequence operands and `β` of the operand of `.cmd`. -/
inductive Mnemonic (α σ β : Type) where
  | rotl32 (v s : α)
  | pack32be (b0 b1 b2 b3 : α)
  | bxor (a b : σ)
  | gfmul (a b : α)
  | txt2b (c : σ)
  /-- `.cmd n`: any CMD byte, all lanes zero. -/
  | cmd (n : β)
deriving DecidableEq, Repr

/-- The pseudo-instructions of R59. -/
inductive Pseudo (α : Type) where
  | rotr32 (v s : α)
  | rotword (v : α)
  | xtime (a : α)
  /-- `txt2b "text"`: a Lean `Char` is a Unicode scalar value (D16). -/
  | txt2bText (text : List Char)
deriving DecidableEq, Repr

/-- What a line says: a mnemonic or a pseudo-instruction, with its operands. -/
inductive Asm (α σ β : Type) where
  | core (m : Mnemonic α σ β)
  | pseudo (p : Pseudo α)
deriving DecidableEq, Repr

/-- A sequence operand `[e0, e1, ...]`, "each element is encoded the same way as a scalar" (R57). -/
def seqLane (xs : List Int) : SeqLane := SeqLane.mk xs.length (xs.map lane)

/-- R59: the expansion of each pseudo-instruction. -/
def Pseudo.expand : Pseudo Int → Mnemonic Int (List Int) Byte
  | .rotr32 v s => .rotl32 v (-s)
  | .rotword v => .rotl32 v 8
  | .xtime a => .gfmul a 2
  | .txt2bText t => .txt2b (t.map fun ch => (ch.toNat : Int))

/-- R58: what each mnemonic encodes as. -/
def Mnemonic.command : Mnemonic Int (List Int) Byte → Command
  | .rotl32 v s => encode (.rotl32 (lane v) (lane s))
  | .pack32be b0 b1 b2 b3 => encode (.pack32be (lane b0) (lane b1) (lane b2) (lane b3))
  | .bxor a b => encode (.bxor (seqLane a) (seqLane b))
  | .gfmul a b => encode (.gfmul (lane a) (lane b))
  | .txt2b c => encode (.txt2b (seqLane c))
  | .cmd n => Command.bare n

/-- The command of a line; a pseudo-instruction "is exactly its expansion" (R59). -/
def Asm.command : Asm Int (List Int) Byte → Command
  | .core m => m.command
  | .pseudo p => p.expand.command

/-- A hex digit in capitals. -/
def hexDigit (n : Nat) : Char := Char.ofNat (if n < 10 then 48 + n else 55 + n)

/-- `0x` and `k` hex digits. -/
def hexText (k n : Nat) : List Char :=
  '0' :: 'x' :: (List.range k).reverse.map fun i => hexDigit (n / 16 ^ i % 16)

/-- Pieces with a separator between them. -/
def joinText (sep : List Char) : List (List Char) → List Char
  | [] => []
  | [x] => x
  | x :: y :: rest => x ++ sep ++ joinText sep (y :: rest)

/-- A scalar lane's piece of the notation; nothing when it is zero. -/
def laneText (name : List Char) (w : Word) : List (List Char) :=
  if w = 0#32 then [] else [name ++ '=' :: hexText 8 w.toNat]

/-- A sequence lane's two pieces; nothing when it is empty. -/
def seqText (c : Char) (q : SeqLane) : List (List Char) :=
  if q.len = 0 then []
  else [['L', c, '='] ++ Nat.toDigits 10 q.len,
    ['S', c, '=', '['] ++ joinText [',', ' '] (q.elems.map fun w => hexText 8 w.toNat) ++ [']']]

/-- The notation of R60, `CMD=.. X0=.. X1=.. X2=.. X3=.. LA=.. SA=[..] LB=.. SB=[..]`, "with lanes that are zero left out". -/
def commandText (c : Command) : List Char :=
  joinText [' ']
    ([['C', 'M', 'D', '='] ++ hexText 2 c.cmd.toNat] ++ laneText ['X', '0'] c.x0 ++ laneText ['X', '1'] c.x1 ++
      laneText ['X', '2'] c.x2 ++ laneText ['X', '3'] c.x3 ++ seqText 'A' c.sa ++ seqText 'B' c.sb)

end Sys2Proof.Machine
end

