-- ==== Sys2Proof/Machine/Reference.lean ====
section
/-! DEFINITION. R25's function `exec(MAX_SEQ_LEN, command) -> response`, written a second time on natural numbers from the
source's contracts and the closed forms (R61 contract, R67, R71, R80, R84, R92). It shares no arithmetic with the machine: the
meanings work on bit vectors, stage by stage. -/

namespace Sys2Proof.Reference

open Sys2Proof.Machine

/-- R61's contract: `((v << (s mod 32)) | (v >> (32 − (s mod 32)))) mod 2^32`, on unbounded naturals (R63). -/
def rotl (v s : Nat) : Nat := ((v <<< (s % 32)) ||| (v >>> (32 - s % 32))) % 2 ^ 32

/-- R67's contract, with each input first masked to 8 bits. -/
def pack (b0 b1 b2 b3 : Nat) : Nat :=
  b0 % 256 * 2 ^ 24 + b1 % 256 * 2 ^ 16 + b2 % 256 * 2 ^ 8 + b3 % 256

/-- R71's contract: element i is `a[i] XOR b[i]`, each masked to 8 bits, for i below the shorter length. -/
def bxor (a b : List Nat) : List Nat :=
  (List.range (min a.length b.length)).map fun i => a.getD i 0 % 256 ^^^ b.getD i 0 % 256

/-- The carry-less product of `a` with the low `n` bits of `b` (R80). -/
def clmul : Nat → Nat → Nat → Nat
  | 0, _, _ => 0
  | n + 1, a, b => clmul n a b ^^^ (if b.testBit n then a <<< n else 0)

/-- Polynomial division by 0x11B: clears bits n + 7 down to 8 (R80). -/
def polyMod : Nat → Nat → Nat
  | 0, x => x
  | n + 1, x => polyMod n (if x.testBit (n + 8) then x ^^^ (0x11B <<< n) else x)

/-- R80: `clmul(a, b) mod 0x11B`; the product has up to 15 bits. -/
def gfmul (a b : Nat) : Nat := polyMod 7 (clmul 8 (a % 256) (b % 256))

/-- R84's contract: each codepoint masked to 8 bits. -/
def txt2b (c : List Nat) : List Nat := c.map (· % 256)

/-- A sequence lane as numbers. -/
def nats (q : SeqLane) : List Nat := q.elems.map BitVec.toNat

/-- The response with a scalar result. -/
def scalar (n : Nat) : Response := Response.mk 0x00#8 (BitVec.ofNat 32 n) 0 []

/-- The response with a sequence result. -/
def sequence (l : List Nat) : Response := Response.mk 0x00#8 0#32 l.length (l.map (BitVec.ofNat 8))

/-- The error response. -/
def error (st : Byte) : Response := Response.mk st 0#32 0 []

/-- A sequence of this length is too long (R90). -/
def tooLong : SeqBound → Nat → Bool
  | .unbounded, _ => false
  | .bounded k, n => !(n ≤ k)

/-- R25, with the checks in R92's order. -/
def answer (m : SeqBound) (c : Command) : Response :=
  match c.cmd.toNat with
  | 1 => scalar (rotl c.x0.toNat c.x1.toNat)
  | 2 => scalar (pack c.x0.toNat c.x1.toNat c.x2.toNat c.x3.toNat)
  | 3 => if tooLong m c.la || tooLong m c.lb then error 0x02#8 else sequence (bxor (nats c.sa) (nats c.sb))
  | 4 => scalar (gfmul c.x0.toNat c.x1.toNat)
  | 5 => if tooLong m c.la then error 0x02#8 else sequence (txt2b (nats c.sa))
  | _ => error 0x01#8

end Sys2Proof.Reference
end

