-- ==== Sys2Proof/Machine/Port.lean ====
section
/-! DEFINITION. What a host can do to the block, between any two steps (70_reset_and_hazards.md R101 to R104). -/

namespace Sys2Proof.Machine

/-- The host's side of the interface. -/
inductive HostAction where
  /-- A host presents a command; it stands behind those presented before it (R104). -/
  | present (c : Command)
  /-- A host collects the oldest response. -/
  | collect
  /-- Reset arrives (R101, R102). -/
  | reset
deriving DecidableEq, Repr

/-- The state after reset arrives: the command in progress is abandoned without a response and nothing is left pending
(10_state.md R28, R102); the internal state is unspecified (R101); the parameter is a platform fact and stays (R103).
Log 13. -/
def State.afterReset (s : State) : State :=
  { s.releaseInternal with commands := [], responses := [] }

/-- The state after a host's action. -/
def State.host (a : HostAction) (s : State) : State :=
  match a with
  | .present c => { s with commands := s.commands ++ [c] }
  | .collect => { s with responses := s.responses.tail }
  | .reset => s.afterReset

end Sys2Proof.Machine
end

