-- ==== Sys2Proof/Safety.lean ====
section
/-! DEFINITION. The terms in which claims are made: what a host can see, what one answer is, and the states and runs that
count as good. -/

namespace Sys2Proof.Machine

/-- What a host can see of an instance: its parameter and its two ports. The stage state, the latches and the model's counter
are unobservable (10_state.md R26). -/
def State.visible (s : State) : SeqBound × List Command × List Response :=
  (s.maxSeqLen, s.commands, s.responses)

/-- From `s` to `t` exactly the response `r` was added behind the earlier ones, no command was taken from the port or put on
it, and the parameter is the same. This is everything an operation may change of what a host can see. -/
def Answered (s : State) (r : Response) (t : State) : Prop :=
  t.responses = s.responses ++ [r] ∧ t.commands = s.commands ∧ t.maxSeqLen = s.maxSeqLen

/-- The instruction completes with the OK response whose scalar result is `w`; LR = 0 and RS = [] (30_encoding.md R48). -/
def YieldsWord (i : Instr) (s : State) (w : Word) : Prop :=
  ∃ t, exec i s = .next t ∧ Answered s (Response.mk 0x00#8 w 0 []) t

/-- The instruction completes with the OK response whose sequence result is `out`; R = 0 (30_encoding.md R48). -/
def YieldsBytes (i : Instr) (s : State) (out : List Byte) : Prop :=
  ∃ t, exec i s = .next t ∧ Answered s (Response.mk 0x00#8 0#32 out.length out) t

/-- The instruction is answered with the error response of status `st` (60_exceptions.md R93). -/
def YieldsError (i : Instr) (s : State) (st : Byte) : Prop :=
  ∃ t, exec i s = .next t ∧ Answered s (Response.mk st 0#32 0 []) t

/-- A sequence of `n` elements is not longer than MAX_SEQ_LEN (60_exceptions.md R90). -/
def Within (m : SeqBound) (n : Nat) : Prop := ∀ k, m = .bounded k → n ≤ k

/-- One step takes the oldest command from the port and answers it with exactly `r`; nothing else that a host can see
changes. -/
def Serves (s : State) (r : Response) : Prop :=
  ∃ t, step s = .next t ∧ t.responses = s.responses ++ [r] ∧ t.commands = s.commands.tail ∧ t.maxSeqLen = s.maxSeqLen

/-- A response is one the block can give (30_encoding.md R45, R47, R48): a status of the three, LR elements, and fixed values
in the fields its operation does not write. -/
def Response.Wf (r : Response) : Prop :=
  (r.st = 0x00#8 ∨ r.st = 0x01#8 ∨ r.st = 0x02#8) ∧ r.lr = r.rs.length ∧
    (r.st ≠ 0x00#8 → r.r = 0#32 ∧ r.rs = []) ∧ (r.r = 0#32 ∨ r.rs = [])

/-- Every command on the port is well formed (10_state.md R23, R106), and every response is one the block can give. -/
def State.Inv (s : State) : Prop :=
  (∀ c ∈ s.commands, c.wf = true) ∧ ∀ r ∈ s.responses, r.Wf

/-- R93's premise of a claim about a command sequence: "no error response". -/
def State.NoErrorResponse (s : State) : Prop := ∀ r ∈ s.responses, r.st = 0x00#8

/-- Two commands select the same operation and agree in every lane that it reads (30_encoding.md R49). -/
def sameReadLanes (o : Op) (c d : Command) : Prop :=
  match o with
  | .rotl32 => c.x0 = d.x0 ∧ c.x1 = d.x1
  | .pack32be => c.x0 = d.x0 ∧ c.x1 = d.x1 ∧ c.x2 = d.x2 ∧ c.x3 = d.x3
  | .bxor => c.sa = d.sa ∧ c.sb = d.sb
  | .gfmul => c.x0 = d.x0 ∧ c.x1 = d.x1
  | .txt2b => c.sa = d.sa

end Sys2Proof.Machine
end

