-- ==== Sys2Proof/Certificates/Slice0/Obligations.lean ====
section
/-! DEFINITION. The statements for the provers. `Answered`, `Serves`, `YieldsWord`, `YieldsBytes`, `YieldsError`, `Within`,
`Response.Wf` and `State.Inv` are in Safety.lean; each of the Yields and Serves predicates says that `exec` or `step` ANSWERS
A NEXT STATE, with which response, and that nothing else a host can see has changed. Between commands the stage state, the
latches and the model's counter are free (logs 7, 8, 9): no statement says anything of their values. -/

open Sys2Proof Sys2Proof.Machine

/-! ### Decoding and encoding -/

/-- Commands written out from R42, R49 and 95_test_vectors.md decode to the instructions they stand for. -/
def Obligations.SpecCommandsDecode : Prop :=
  decode (Command.mk 0x01#8 0x12345678#32 4#32 0#32 0#32 0 0 []) = .ok (.rotl32 0x12345678#32 4#32) ∧
  decode (Command.mk 0x02#8 0x12#32 0x34#32 0x56#32 0x78#32 0 0 []) = .ok (.pack32be 0x12#32 0x34#32 0x56#32 0x78#32) ∧
  decode (Command.mk 0x03#8 0#32 0#32 0#32 0#32 2 3 [0x12#32, 0x34#32, 0x56#32, 0x78#32, 0x9A#32]) =
    .ok (.bxor (SeqLane.mk 2 [0x12#32, 0x34#32]) (SeqLane.mk 3 [0x56#32, 0x78#32, 0x9A#32])) ∧
  decode (Command.mk 0x04#8 0x57#32 0x83#32 0#32 0#32 0 0 []) = .ok (.gfmul 0x57#32 0x83#32) ∧
  decode (Command.mk 0x05#8 0#32 0#32 0#32 0#32 2 0 [0x48#32, 0x69#32]) = .ok (.txt2b (SeqLane.mk 2 [0x48#32, 0x69#32])) ∧
  decode (Command.mk 0x09#8 0x12345678#32 4#32 0#32 0#32 0 0 []) = .error .illegalCommand

/-- The decoder and the rows of the opcode table (R42) select the same operation, and no two rows match one CMD. -/
def Obligations.DecoderFollowsOpcodeTable : Prop :=
  (∀ (c : Command) (o : Op), c.op = some o ↔ ∃ row ∈ opTable, row.op = o ∧ c.cmd &&& row.mask = row.pattern) ∧
  opTable.Pairwise fun x y => ∀ cmd : Byte, ¬(cmd &&& x.mask = x.pattern ∧ cmd &&& y.mask = y.pattern)

/-- Decode undoes encode, for every well-formed instruction (R49, R56, R57). -/
def Obligations.DecodeOfEncodeIsIdentity : Prop :=
  ∀ i : Instr, i.wf = true → decode (encode i) = .ok i

/-- What is decoded is well formed, and encoding it again gives a command with the same CMD and the same value in every lane
that the operation reads (R49). -/
def Obligations.EncodeOfDecodeKeepsReadLanes : Prop :=
  ∀ (c : Command) (i : Instr), decode c = .ok i →
    i.wf = true ∧ (encode i).wf = true ∧ (encode i).cmd = c.cmd ∧ decode (encode i) = .ok i ∧
    ∃ o, c.op = some o ∧ sameReadLanes o (encode i) c

/-- R54 and R89: the 251 illegal CMD bytes, and the answer each of them gets whatever the lanes hold. -/
def Obligations.IllegalCommandsAreAnswered : Prop :=
  (∀ c : Command, decode c = .error .illegalCommand ↔ c.cmd ∉ [0x01#8, 0x02#8, 0x03#8, 0x04#8, 0x05#8]) ∧
  (∀ b : Byte, b ∉ [0x01#8, 0x02#8, 0x03#8, 0x04#8, 0x05#8] ↔
    b = 0x00#8 ∨ b = 0x06#8 ∨ b = 0x07#8 ∨ b.extractLsb' 3 5 ≠ 0#5) ∧
  ((List.range 256).filter fun n => BitVec.ofNat 8 n ∉ [0x01#8, 0x02#8, 0x03#8, 0x04#8, 0x05#8]).length = 251 ∧
  (∀ (s : State) (c : Command) (rest : List Command), s.commands = c :: rest →
    c.cmd ∉ [0x01#8, 0x02#8, 0x03#8, 0x04#8, 0x05#8] → Serves s (Response.mk 0x01#8 0#32 0 []))

/-- A step takes the oldest command whole from the port into the latches and is `exec` of the instruction it decodes to. This
is the model's choice: that one step takes and answers one command is log 4 (DEDUCED), and that it decodes from the field
latch is log 8 (DESIGN CHOICE). That `exec` follows from CMD is R25. -/
def Obligations.StepRunsDecodedInstruction : Prop :=
  ∀ (s : State) (c : Command) (rest : List Command) (i : Instr),
    s.commands = c :: rest → decode c = .ok i → step s = exec i { s with commands := rest, latch := c }

/-- R49 and R55: no lane that the operation ignores affects the response. -/
def Obligations.IgnoredLanesDoNotAffectResponse : Prop :=
  ∀ (s s' : State) (c c' : Command) (rest rest' : List Command) (o : Op) (r : Response),
    s.commands = c :: rest → s'.commands = c' :: rest' → s.maxSeqLen = s'.maxSeqLen →
    c.op = some o → c'.op = some o → c'.wf = true → sameReadLanes o c c' → Serves s r → Serves s' r

/-! ### ROTL32 -/

/-- R61, R64: for every value of X0 and every integer s presented in X1 the response is OK with the contract's result. -/
def Obligations.Rotl32MeetsContract : Prop :=
  ∀ (s : State) (c : Command) (rest : List Command) (n : Int),
    s.commands = c :: rest → c.wf = true → c.cmd = 0x01#8 → c.x1 = BitVec.ofNat 32 (n % 2 ^ 32).toNat →
    Serves s (Response.mk 0x00#8
      (BitVec.ofNat 32 (((c.x0.toNat <<< (n % 32).toNat) ||| (c.x0.toNat >>> (32 - (n % 32).toNat))) % 2 ^ 32)) 0 [])

/-- R50, R62: the amount is X1[4:0], which is s mod 32 by the true modulo, for the lane read as unsigned, for the lane read as
two's complement, and for every integer s that a host presents as s mod 2^32; ROTL32 ignores bits 31:5 of X1. -/
def Obligations.RotationAmountIsTrueModulo : Prop :=
  (∀ x : Word, amount x = x.extractLsb' 0 5 ∧ (amount x).toNat ≤ 31 ∧
    (amount x).toNat = x.toNat % 32 ∧ ((amount x).toNat : Int) = x.toInt % 32) ∧
  (∀ n : Int, ((amount (lane n)).toNat : Int) = n % 32) ∧
  ∀ (v x : Word) (s : State), exec (.rotl32 v x) s = exec (.rotl32 v ((amount x).setWidth 32)) s

/-- R66: bit i of the result is bit (i − amt) mod 32 of v, and as many bits are set as in v. -/
def Obligations.Rotl32MovesEachBit : Prop :=
  ∀ (v x : Word) (s : State), ∃ w, YieldsWord (.rotl32 v x) s w ∧
    (∀ i : Nat, i < 32 → w.getLsbD i = v.getLsbD (((i : Int) - (x.extractLsb' 0 5).toNat) % 32).toNat) ∧
    (List.range 32).countP w.getLsbD = (List.range 32).countP v.getLsbD

/-- R66: rotations compose, for all integers. -/
def Obligations.Rotl32Composes : Prop :=
  ∀ (v : Word) (m n : Int) (s t : State), ∃ w x,
    YieldsWord (.rotl32 v (lane m)) s w ∧ YieldsWord (.rotl32 w (lane n)) t x ∧ YieldsWord (.rotl32 v (lane (m + n))) s x

/-- R65: rotation is invertible, for every word and every integer. -/
def Obligations.Rotl32IsInvertible : Prop :=
  ∀ (v : Word) (n : Int) (s t : State), ∃ w,
    YieldsWord (.rotl32 v (lane n)) s w ∧ YieldsWord (.rotl32 w (lane (32 - n % 32))) t v

/-! ### PACK32BE -/

/-- R67, R68, R69: the response to PACK32BE, for every value of X0 to X3. -/
def Obligations.Pack32beIsBigEndian : Prop :=
  ∀ (s : State) (c : Command) (rest : List Command), s.commands = c :: rest → c.wf = true → c.cmd = 0x02#8 →
    ∃ w : Word, Serves s (Response.mk 0x00#8 w 0 []) ∧
      w.toNat = c.x0.toNat % 256 * 2 ^ 24 + c.x1.toNat % 256 * 2 ^ 16 + c.x2.toNat % 256 * 2 ^ 8 + c.x3.toNat % 256 ∧
      w.extractLsb' 24 8 = c.x0.extractLsb' 0 8 ∧ w.extractLsb' 16 8 = c.x1.extractLsb' 0 8 ∧
      w.extractLsb' 8 8 = c.x2.extractLsb' 0 8 ∧ w.extractLsb' 0 8 = c.x3.extractLsb' 0 8

/-- R67, R69: PACK32BE completes from every state, for every value of its lanes, and changes nothing else. -/
def Obligations.Pack32beCompletes : Prop :=
  ∀ (b0 b1 b2 b3 : Word) (s : State), YieldsWord (.pack32be b0 b1 b2 b3) s
    (((b0 &&& 0xFF#32) <<< 24) ||| ((b1 &&& 0xFF#32) <<< 16) ||| ((b2 &&& 0xFF#32) <<< 8) ||| (b3 &&& 0xFF#32))

/-- R70: on byte operands PACK32BE is a bijection onto the words; the bytes are the fields of R. -/
def Obligations.Pack32beIsBijectionOnBytes : Prop :=
  ∀ (w : Word) (s : State) (b0 b1 b2 b3 : Byte),
    YieldsWord (.pack32be (b0.setWidth 32) (b1.setWidth 32) (b2.setWidth 32) (b3.setWidth 32)) s w ↔
      b0 = w.extractLsb' 24 8 ∧ b1 = w.extractLsb' 16 8 ∧ b2 = w.extractLsb' 8 8 ∧ b3 = w.extractLsb' 0 8

/-! ### BXOR -/

/-- R71, R72: the response to BXOR. SA is the first LA elements presented and SB the LB after them (R56). -/
def Obligations.BxorMeetsContract : Prop :=
  ∀ (s : State) (c : Command) (rest : List Command), s.commands = c :: rest → c.wf = true → c.cmd = 0x03#8 →
    (Within s.maxSeqLen c.la ∧ Within s.maxSeqLen c.lb →
      ∃ out : List Byte, Serves s (Response.mk 0x00#8 0#32 out.length out) ∧ out.length = min c.la c.lb ∧
        ∀ i, i < min c.la c.lb → out[i]? =
          some ((c.elems.getD i 0#32).extractLsb' 0 8 ^^^ (c.elems.getD (c.la + i) 0#32).extractLsb' 0 8)) ∧
    (¬(Within s.maxSeqLen c.la ∧ Within s.maxSeqLen c.lb) → Serves s (Response.mk 0x02#8 0#32 0 []))

/-- R71, R72: BXOR of well-formed sequences within MAX_SEQ_LEN completes and changes nothing else. -/
def Obligations.BxorCompletes : Prop :=
  ∀ (a b : SeqLane) (s : State), a.wf = true → b.wf = true → Within s.maxSeqLen a.len → Within s.maxSeqLen b.len →
    ∃ out, YieldsBytes (.bxor a b) s out ∧ out.length = min a.len b.len ∧
      ∀ i, i < min a.len b.len → out[i]? =
        some ((a.elems.getD i 0#32).extractLsb' 0 8 ^^^ (b.elems.getD i 0#32).extractLsb' 0 8)

/-- R74, with 90_conflicts.md C5: XOR with b twice gives a back, masked; and a itself where its elements are bytes. -/
def Obligations.BxorIsSelfInverse : Prop :=
  ∀ (a b : SeqLane) (s t : State), a.wf = true → b.wf = true → a.len ≤ b.len →
    Within s.maxSeqLen b.len → Within t.maxSeqLen b.len →
    ∃ x y, YieldsBytes (.bxor a b) s x ∧
      YieldsBytes (.bxor (SeqLane.mk x.length (x.map (BitVec.setWidth 32))) b) t y ∧
      x.length = a.len ∧ y = a.elems.map (BitVec.extractLsb' 0 8) ∧
      ((∀ e ∈ a.elems, e.toNat < 256) → y.map (BitVec.setWidth 32) = a.elems)

/-- R75: BXOR is commutative, in its OK responses and in its error responses. -/
def Obligations.BxorCommutes : Prop :=
  ∀ (a b : SeqLane) (s : State), ∃ r t u, exec (.bxor a b) s = .next t ∧ Answered s r t ∧
    exec (.bxor b a) s = .next u ∧ Answered s r u

/-- R73: each output element depends only on the input elements at its own index. -/
def Obligations.BxorLanesAreIndependent : Prop :=
  ∀ (a b a' b' : SeqLane) (s s' : State) (x x' : List Byte) (i : Nat),
    YieldsBytes (.bxor a b) s x → YieldsBytes (.bxor a' b') s' x' →
    a.elems[i]? = a'.elems[i]? → b.elems[i]? = b'.elems[i]? → x[i]? = x'[i]?

/-! ### GFMUL -/

/-- R77, R82: the response to GFMUL is p_8 of the stage equations, zero-extended, for every value of X0 and X1. -/
def Obligations.GfmulRunsEightStages : Prop :=
  ∀ (s : State) (c : Command) (rest : List Command) (p a b : Nat → Byte),
    s.commands = c :: rest → c.wf = true → c.cmd = 0x04#8 →
    p 0 = 0x00#8 → a 0 = c.x0.extractLsb' 0 8 → b 0 = c.x1.extractLsb' 0 8 →
    (∀ k, k < 8 → p (k + 1) = p k ^^^ (if (b k).getLsbD 0 then a k else 0x00#8)) →
    (∀ k, k < 8 → a (k + 1) = (a k <<< 1) ^^^ (if (a k).getLsbD 7 then 0x1B#8 else 0x00#8)) →
    (∀ k, k < 8 → b (k + 1) = b k >>> 1) →
    Serves s (Response.mk 0x00#8 ((p 8).setWidth 32) 0 [])

/-- R79, R82: GFMUL completes from every state, for every value of its lanes, with R[31:8] = 0, and changes nothing else. -/
def Obligations.GfmulCompletes : Prop :=
  ∀ (x y : Word) (s : State), ∃ w, YieldsWord (.gfmul x y) s w ∧ w.extractLsb' 8 24 = 0#24

/-- R80: the stages give the carry-less product modulo 0x11B. -/
def Obligations.GfmulIsProductModuloPolynomial : Prop :=
  ∀ (x y : Word) (s : State), YieldsWord (.gfmul x y) s (BitVec.ofNat 32 (Reference.gfmul x.toNat y.toNat)) ∧
    Reference.gfmul x.toNat y.toNat < 256

/-- R81: the laws of the field. -/
def Obligations.GfmulObeysFieldLaws : Prop :=
  ∀ (s : State) (x y : Word),
    (∃ w, YieldsWord (.gfmul x y) s w ∧ YieldsWord (.gfmul y x) s w) ∧
    YieldsWord (.gfmul x 0#32) s 0#32 ∧
    YieldsWord (.gfmul 1#32 x) s (x &&& 0xFF#32) ∧
    (x.extractLsb' 0 8 ≠ 0#8 → ∃ z, YieldsWord (.gfmul x z) s 1#32) ∧
    YieldsWord (.gfmul 0x53#32 0xCA#32) s 0x01#32

/-! ### TXT2B -/

/-- R84, R85: the response to TXT2B; LB is not checked. -/
def Obligations.Txt2bMasksEachCodepoint : Prop :=
  ∀ (s : State) (c : Command) (rest : List Command), s.commands = c :: rest → c.wf = true → c.cmd = 0x05#8 →
    (Within s.maxSeqLen c.la →
      ∃ out : List Byte, Serves s (Response.mk 0x00#8 0#32 out.length out) ∧ out.length = c.la ∧
        ∀ i, i < c.la → out[i]? = some ((c.elems.getD i 0#32).extractLsb' 0 8)) ∧
    (¬Within s.maxSeqLen c.la → Serves s (Response.mk 0x02#8 0#32 0 []))

/-- R84, R85: TXT2B of a well-formed sequence within MAX_SEQ_LEN completes and changes nothing else. -/
def Obligations.Txt2bCompletes : Prop :=
  ∀ (c : SeqLane) (s : State), c.wf = true → Within s.maxSeqLen c.len →
    ∃ out, YieldsBytes (.txt2b c) s out ∧ out.length = c.len ∧
      ∀ i, i < c.len → (out[i]?).map BitVec.toNat = some ((c.elems.getD i 0#32).toNat % 256)

/-! ### Operands -/

/-- R51, R53: a byte operand or codepoint is the host's integer mod 256, and bits 31:8 of its lane are ignored. -/
def Obligations.ByteLanesAreMaskedNotRejected : Prop :=
  (∀ n : Int, ((mask8 (lane n)).toNat : Int) = n % 256) ∧
  (∀ (f g h k : Int) (s : State), exec (.pack32be (lane f) (lane g) (lane h) (lane k)) s =
    exec (.pack32be (lane (f % 256)) (lane (g % 256)) (lane (h % 256)) (lane (k % 256))) s) ∧
  (∀ (f g : Int) (s : State), exec (.gfmul (lane f) (lane g)) s = exec (.gfmul (lane (f % 256)) (lane (g % 256))) s) ∧
  (∀ (f g : List Int) (s : State), exec (.bxor (seqLane f) (seqLane g)) s =
    exec (.bxor (seqLane (f.map (· % 256))) (seqLane (g.map (· % 256)))) s) ∧
  (∀ (f : List Int) (s : State), exec (.txt2b (seqLane f)) s = exec (.txt2b (seqLane (f.map (· % 256)))) s)

/-! ### Errors -/

/-- R90: where LENGTH_EXCEEDED is raised, and that it is raised nowhere else: not by BXOR and TXT2B of sequences within
MAX_SEQ_LEN (so of LA = MAX_SEQ_LEN, and of every length when it is unbounded), and not by the other three at all. -/
def Obligations.LengthExceededExactly : Prop :=
  (∀ (a b : SeqLane) (s : State) (k : Nat), s.maxSeqLen = .bounded k → k < a.len ∨ k < b.len →
    YieldsError (.bxor a b) s 0x02#8) ∧
  (∀ (c : SeqLane) (s : State) (k : Nat), s.maxSeqLen = .bounded k → k < c.len → YieldsError (.txt2b c) s 0x02#8) ∧
  (∀ (v n b0 b1 b2 b3 x y : Word) (s : State), (∃ w, YieldsWord (.rotl32 v n) s w) ∧
    (∃ w, YieldsWord (.pack32be b0 b1 b2 b3) s w) ∧ ∃ w, YieldsWord (.gfmul x y) s w) ∧
  (∀ (a b : SeqLane) (s : State), a.wf = true → b.wf = true → Within s.maxSeqLen a.len → Within s.maxSeqLen b.len →
    ∃ out, YieldsBytes (.bxor a b) s out) ∧
  (∀ (c : SeqLane) (s : State), c.wf = true → Within s.maxSeqLen c.len → ∃ out, YieldsBytes (.txt2b c) s out) ∧
  ∀ n : Nat, Within .unbounded n

/-- R92: the checks in their order; the first that fails decides the status, and after them the operation succeeds. -/
def Obligations.ChecksAreMadeInOrder : Prop :=
  ∀ (s : State) (c : Command) (rest : List Command), s.commands = c :: rest → c.wf = true →
    ∃ r, Serves s r ∧
      ((c.cmd = 0x00#8 ∨ 0x05#8 < c.cmd) → r.st = 0x01#8) ∧
      (c.cmd = 0x03#8 → (¬Within s.maxSeqLen c.la ∨ ¬Within s.maxSeqLen c.lb) → r.st = 0x02#8) ∧
      (c.cmd = 0x05#8 → ¬Within s.maxSeqLen c.la → r.st = 0x02#8) ∧
      (c.cmd = 0x01#8 ∨ c.cmd = 0x02#8 ∨ c.cmd = 0x04#8 ∨
        (c.cmd = 0x03#8 ∧ Within s.maxSeqLen c.la ∧ Within s.maxSeqLen c.lb) ∨
        (c.cmd = 0x05#8 ∧ Within s.maxSeqLen c.la) → r.st = 0x00#8)

/-- R48, R88, R93: whatever command a step takes, exactly one response comes, of the three statuses, with LR elements, and
with the fields that its operation does not write at their fixed values. -/
def Obligations.EveryResponseIsFullyDetermined : Prop :=
  ∀ (s t : State) (c : Command) (rest : List Command), s.commands = c :: rest → step s = .next t →
    ∃ r, t.responses = s.responses ++ [r] ∧ t.commands = rest ∧
      (r.st = 0x00#8 ∨ r.st = 0x01#8 ∨ r.st = 0x02#8) ∧ r.lr = r.rs.length ∧
      (r.st ≠ 0x00#8 → r.r = 0#32 ∧ r.lr = 0 ∧ r.rs = []) ∧
      (c.cmd = 0x01#8 ∨ c.cmd = 0x02#8 ∨ c.cmd = 0x04#8 → r.lr = 0 ∧ r.rs = []) ∧
      (c.cmd = 0x03#8 ∨ c.cmd = 0x05#8 → r.r = 0#32)

/-- R94: after an error response the next command gets the response it gets without it. -/
def Obligations.ErrorResponseHasNoLaterEffect : Prop :=
  ∀ (s t : State) (c d : Command) (rest : List Command) (e r : Response),
    s.commands = c :: d :: rest → step s = .next t → t.responses = s.responses ++ [e] → e.st ≠ 0x00#8 →
    (Serves t r ↔ Serves { s with commands := d :: rest } r)

/-- Where a step stops. No step is refused; a step faults exactly on a command with a legal CMD that is not well formed. That
it stops there is the model's choice (log 10); that it stops nowhere else is R91. -/
def Obligations.StepStopsOnlyOnMalformedCommand : Prop :=
  ∀ s : State, (∀ e, step s ≠ .refused e) ∧
    ∀ e, step s = .fault e ↔ e = .malformedCommand ∧ ∃ c rest, s.commands = c :: rest ∧
      c.cmd ∈ [0x01#8, 0x02#8, 0x03#8, 0x04#8, 0x05#8] ∧ c.elems.length ≠ c.la + c.lb

/-! ### The machine as a whole -/

/-- R27, R25: the response depends on the command and the parameter only: not on earlier commands and responses, on what
waits behind, or on internal state. -/
def Obligations.ResponseDependsOnlyOnCommand : Prop :=
  ∀ (s s' : State) (c : Command) (rest rest' : List Command) (r : Response),
    s.commands = c :: rest → s'.commands = c :: rest' → s.maxSeqLen = s'.maxSeqLen → Serves s r → Serves s' r

/-- R26: in runs of any length, no host can observe the stage state or the latches. -/
def Obligations.InternalStateIsUnobservable : Prop :=
  ∀ (n : Nat) (s s' t : State), s.visible = s'.visible → Sys2Proof.core.run n s = .next t →
    ∃ t', Sys2Proof.core.run n s' = .next t' ∧ t'.visible = t.visible

/-- R36: a command issued twice gets two equal responses. -/
def Obligations.RepeatedCommandGetsEqualResponse : Prop :=
  ∀ (s : State) (c : Command) (rest : List Command), s.commands = c :: c :: rest → c.wf = true →
    ∃ r t, step s = .next t ∧ t.responses = s.responses ++ [r] ∧ t.commands = c :: rest ∧ Serves t r

/-- Every step keeps the invariant: well-formed commands on the port, and responses of the form of R45, R47 and R48. -/
def Obligations.StepKeepsInvariant : Prop :=
  ∀ s t : State, s.Inv → step s = .next t → t.Inv

/-- The invariant holds after reset, of every instance. -/
def Obligations.ResetMeetsInvariant : Prop :=
  State.reset.Inv ∧ ∀ m : SeqBound, (State.resetOf m).Inv

/-- A host's actions keep the invariant, if the commands presented are well formed (R106). -/
def Obligations.HostActionsKeepInvariant : Prop :=
  ∀ (a : HostAction) (s : State), s.Inv → (∀ c, a = .present c → c.wf = true) → (s.host a).Inv

/-- R104, R25: run over the commands on its port, the block is `map (exec MAX_SEQ_LEN)`: one response for each, in their
order. That one step answers one command is the model's reading (log 4). `Reference.answer` is R25's function as the model
writes it a second time, for well-formed commands, on natural numbers from the contracts and R80's closed form (log 20). -/
def Obligations.RunAnswersEveryCommandInOrder : Prop :=
  ∀ s : State, s.Inv → ∃ t, Sys2Proof.core.run s.commands.length s = .next t ∧
    t.commands = [] ∧ t.maxSeqLen = s.maxSeqLen ∧
    t.responses = s.responses ++ s.commands.map (Reference.answer s.maxSeqLen)

/-- R91, R93: legal commands whose sequences are within MAX_SEQ_LEN run without an error response. -/
def Obligations.LegalCommandsRunWithoutErrorResponse : Prop :=
  ∀ s : State, s.Inv → s.NoErrorResponse →
    (∀ c ∈ s.commands, c.cmd ∈ [0x01#8, 0x02#8, 0x03#8, 0x04#8, 0x05#8] ∧
      Within s.maxSeqLen c.la ∧ Within s.maxSeqLen c.lb) →
    ∃ t, Sys2Proof.core.run s.commands.length s = .next t ∧ t.commands = [] ∧ t.NoErrorResponse

/-- R108: every accepted command is answered; with `n` commands on the port, after `n` steps. The bound is the model's, which
has no time (log 4). -/
def Obligations.EveryCommandCompletes : Prop :=
  ∀ (s : State) (n : Nat), s.Inv → n ≤ s.commands.length →
    ∃ t, Sys2Proof.core.run n s = .next t ∧ t.commands = s.commands.drop n ∧
      t.responses.length = s.responses.length + n

/-- R38, R100: in whatever order hosts' commands stand on the port, each gets the same response. -/
def Obligations.InterleavingChangesNoResponse : Prop :=
  ∀ s s' : State, s.Inv → s'.Inv → s.maxSeqLen = s'.maxSeqLen → s.commands.Perm s'.commands →
    s.responses = [] → s'.responses = [] →
    ∃ t t', Sys2Proof.core.run s.commands.length s = .next t ∧ Sys2Proof.core.run s'.commands.length s' = .next t' ∧
      (s.commands.zip t.responses).Perm (s'.commands.zip t'.responses)

/-- R12, R21: no step and no host's action changes the parameter. -/
def Obligations.ParameterNeverChanges : Prop :=
  (∀ (n : Nat) (s t : State), Sys2Proof.core.run n s = .next t → t.maxSeqLen = s.maxSeqLen) ∧
  ∀ (a : HostAction) (s : State), (s.host a).maxSeqLen = s.maxSeqLen

/-- With nothing on the port a step changes nothing (log 5). -/
def Obligations.IdleStepChangesNothing : Prop :=
  ∀ s : State, s.commands = [] → step s = .next s

/-! ### Reset -/

/-- R101: after reset both ports are empty, and the first command presented gets the response of R25's function. -/
def Obligations.ResetLeavesPortsEmpty : Prop :=
  State.reset.commands = [] ∧ State.reset.responses = [] ∧
  ∀ m : SeqBound, (State.resetOf m).commands = [] ∧ (State.resetOf m).responses = [] ∧ (State.resetOf m).maxSeqLen = m ∧
    ∀ c : Command, c.wf = true → Serves ((State.resetOf m).host (.present c)) (Reference.answer m c)

/-- R102, R28: the command in progress when reset arrives gives no response and leaves nothing behind. That the commands
waiting behind it and the responses not yet collected are dropped too is the model's choice (log 13), read from R28 and
R101. -/
def Obligations.ResetAbandonsCommandInProgress : Prop :=
  ∀ s : State, (s.host .reset).commands = [] ∧ (s.host .reset).responses = [] ∧
    (s.host .reset).visible = (State.resetOf s.maxSeqLen).visible ∧
    ∀ (c : Command) (r : Response), Serves ((s.host .reset).host (.present c)) r ↔
      Serves ((State.resetOf s.maxSeqLen).host (.present c)) r

/-! ### The assembler -/

/-- R57, R58: the command each mnemonic encodes as; integers as n mod 2^32, the lanes not named as zero. -/
def Obligations.AssemblerEncodesMnemonics : Prop :=
  (∀ n : Int, lane n = BitVec.ofNat 32 (n % 2 ^ 32).toNat) ∧
  (∀ v s : Int, (Mnemonic.rotl32 v s).command = Command.mk 0x01#8 (lane v) (lane s) 0#32 0#32 0 0 []) ∧
  (∀ b0 b1 b2 b3 : Int, (Mnemonic.pack32be b0 b1 b2 b3).command =
    Command.mk 0x02#8 (lane b0) (lane b1) (lane b2) (lane b3) 0 0 []) ∧
  (∀ a b : List Int, (Mnemonic.bxor a b).command =
    Command.mk 0x03#8 0#32 0#32 0#32 0#32 a.length b.length (a.map lane ++ b.map lane)) ∧
  (∀ a b : Int, (Mnemonic.gfmul a b).command = Command.mk 0x04#8 (lane a) (lane b) 0#32 0#32 0 0 []) ∧
  (∀ c : List Int, (Mnemonic.txt2b c).command = Command.mk 0x05#8 0#32 0#32 0#32 0#32 c.length 0 (c.map lane)) ∧
  ∀ n : Byte, (Mnemonic.cmd n).command = Command.mk n 0#32 0#32 0#32 0#32 0 0 []

/-- R59: `rotr32 v, s` rotates right by s, for all integers. -/
def Obligations.Rotr32RotatesRight : Prop :=
  ∀ (v n : Int) (s : State) (rest : List Command), s.commands = (Asm.pseudo (.rotr32 v n)).command :: rest →
    ∃ w : Word, Serves s (Response.mk 0x00#8 w 0 []) ∧
      ∀ i : Nat, i < 32 → w.getLsbD i = (lane v).getLsbD (((i : Int) + n) % 32).toNat

/-- R59: `rotword v` rotates one byte left. -/
def Obligations.RotwordRotatesOneByte : Prop :=
  ∀ (v : Int) (s : State) (rest : List Command), s.commands = (Asm.pseudo (.rotword v)).command :: rest →
    ∃ w : Word, Serves s (Response.mk 0x00#8 w 0 []) ∧
      w.extractLsb' 8 24 = (lane v).extractLsb' 0 24 ∧ w.extractLsb' 0 8 = (lane v).extractLsb' 24 8

/-- R59: `xtime a` multiplies by x: a shift, and a reduction where bit 7 goes out. -/
def Obligations.XtimeDoubles : Prop :=
  ∀ (a : Int) (s : State) (rest : List Command), s.commands = (Asm.pseudo (.xtime a)).command :: rest →
    Serves s (Response.mk 0x00#8
      ((((BitVec.ofInt 8 a) <<< 1) ^^^ (if (BitVec.ofInt 8 a).msb then 0x1B#8 else 0x00#8)).setWidth 32) 0 [])

/-- R59, R84: `txt2b "text"` gives the low byte of each Unicode scalar value of the text, in order. -/
def Obligations.TextBecomesLowBytes : Prop :=
  ∀ (text : List Char) (s : State) (rest : List Command), Within s.maxSeqLen text.length →
    s.commands = (Asm.pseudo (.txt2bText text)).command :: rest →
    Serves s (Response.mk 0x00#8 0#32 text.length (text.map fun ch => BitVec.ofNat 8 ch.toNat))
end

