-- ==== Sys2Proof/Laws/Decode.lean ====
section
/-! SUPPORT. What the decoder and the encoder can do, said once. -/

namespace Sys2Proof

@[simp] theorem SeqLane.wf_iff (q : SeqLane) : q.wf = true ↔ q.len = q.elems.length := by simp [SeqLane.wf]

@[simp] theorem Command.wf_iff (c : Command) : c.wf = true ↔ c.elems.length = c.la + c.lb := by simp [Command.wf]

/-- The operation select on the byte alone, a finite fact from which the opcode map is read off. -/
theorem Op.cmd_of_byte : ∀ b : Byte, (if b.extractLsb' 3 5 = 0#5 then Op.ofOpc (b.extractLsb' 0 3) else none) =
    if b = 0x01#8 then some .rotl32 else if b = 0x02#8 then some .pack32be else if b = 0x03#8 then some .bxor
    else if b = 0x04#8 then some .gfmul else if b = 0x05#8 then some .txt2b else none := by decide

/-- R42 as a chain of comparisons. -/
theorem Command.op_eq (c : Command) : c.op =
    if c.cmd = 0x01#8 then some .rotl32 else if c.cmd = 0x02#8 then some .pack32be else if c.cmd = 0x03#8 then some .bxor
    else if c.cmd = 0x04#8 then some .gfmul else if c.cmd = 0x05#8 then some .txt2b else none :=
  Op.cmd_of_byte c.cmd

/-- A command selects `o` exactly when its CMD is `o`'s (R42). -/
theorem Command.op_eq_some (c : Command) (o : Op) : c.op = some o ↔ c.cmd = o.cmd := by
  rw [Command.op_eq]
  cases o <;> simp only [Op.cmd] <;> constructor <;> intro h
  all_goals first
    | (rw [h]; rfl)
    | (repeat' split at h) <;> first | assumption | (exact absurd (Option.some.inj h) (by decide)) | cases h

/-- A command selects nothing exactly when its CMD is none of the five (R54). -/
theorem Command.op_eq_none (c : Command) :
    c.op = none ↔ c.cmd ∉ [0x01#8, 0x02#8, 0x03#8, 0x04#8, 0x05#8] := by
  rw [Command.op_eq]
  simp only [List.mem_cons, List.not_mem_nil, or_false, not_or]
  constructor
  · intro h
    (repeat' split at h) <;> simp_all
  · rintro ⟨h1, h2, h3, h4, h5⟩
    simp [h1, h2, h3, h4, h5]

theorem decode_illegal {c : Command} (h : c.op = none) : decode c = .error .illegalCommand := by simp [decode, h]

theorem decode_malformed {c : Command} {o : Op} (h : c.op = some o) (hw : c.wf = false) :
    decode c = .error .malformedCommand := by simp [decode, h, hw]

theorem decode_legal {c : Command} {o : Op} (h : c.op = some o) (hw : c.wf = true) : decode c = .ok (o.instr c) := by
  simp [decode, h, hw]

/-- The decoder answers with an instruction exactly on a well-formed command with a legal CMD. -/
theorem decode_eq_ok {c : Command} {i : Instr} :
    decode c = .ok i ↔ ∃ o, c.op = some o ∧ c.wf = true ∧ i = o.instr c := by
  unfold decode
  cases c.op with
  | none => simp
  | some o => by_cases hw : c.wf = true <;> simp [hw, eq_comm]

/-- The sequences of a well-formed command have the lengths that its length fields say (R23). -/
theorem Command.sa_wf {c : Command} (h : c.wf = true) : c.sa.wf = true := by
  simp only [Command.wf_iff] at h
  simp [Command.sa, h]

theorem Command.sb_wf {c : Command} (h : c.wf = true) : c.sb.wf = true := by
  simp only [Command.wf_iff] at h
  simp [Command.sb, h]

/-- Operand assembly of a well-formed command gives a well-formed instruction. -/
theorem Op.instr_wf {c : Command} (o : Op) (h : c.wf = true) : (o.instr c).wf = true := by
  have ha := Command.sa_wf h
  have hb := Command.sb_wf h
  cases o <;> simp only [Op.instr, Instr.wf, ha, hb, Bool.and_self]

end Sys2Proof
end

