-- ==== Sys2Proof/Laws/State.lean ====
section
/-! SUPPORT. One lemma per field of State and per operation that updates it. -/

namespace Sys2Proof.Machine

variable (s : State) (r : Response)

@[simp] theorem State.complete_maxSeqLen : (s.complete r).maxSeqLen = s.maxSeqLen := rfl
@[simp] theorem State.complete_commands : (s.complete r).commands = s.commands := rfl
@[simp] theorem State.complete_responses : (s.complete r).responses = s.responses ++ [r] := rfl

@[simp] theorem State.releaseInternal_maxSeqLen : s.releaseInternal.maxSeqLen = s.maxSeqLen := rfl
@[simp] theorem State.releaseInternal_commands : s.releaseInternal.commands = s.commands := rfl
@[simp] theorem State.releaseInternal_responses : s.releaseInternal.responses = s.responses := rfl

@[simp] theorem State.loadStage_maxSeqLen (a b : Byte) : (s.loadStage a b).maxSeqLen = s.maxSeqLen := rfl
@[simp] theorem State.loadStage_commands (a b : Byte) : (s.loadStage a b).commands = s.commands := rfl
@[simp] theorem State.loadStage_responses (a b : Byte) : (s.loadStage a b).responses = s.responses := rfl
@[simp] theorem State.loadStage_stage (a b : Byte) : (s.loadStage a b).stage = gfStart a b := rfl

@[simp] theorem State.runStages_maxSeqLen (n : Nat) : (s.runStages n).maxSeqLen = s.maxSeqLen := rfl
@[simp] theorem State.runStages_commands (n : Nat) : (s.runStages n).commands = s.commands := rfl
@[simp] theorem State.runStages_responses (n : Nat) : (s.runStages n).responses = s.responses := rfl
@[simp] theorem State.runStages_stage (n : Nat) : (s.runStages n).stage = gfStages n s.stage := rfl

@[simp] theorem State.withFetchWord_commands (k w : Nat) :
    (s.withFetchWord k w).commands = Command.ofTableWord k w :: s.commands := rfl
@[simp] theorem State.withFetchWord_maxSeqLen (k w : Nat) : (s.withFetchWord k w).maxSeqLen = s.maxSeqLen := rfl
@[simp] theorem State.withFetchWord_responses (k w : Nat) : (s.withFetchWord k w).responses = s.responses := rfl

@[simp] theorem State.host_present_commands (c : Command) : (s.host (.present c)).commands = s.commands ++ [c] := rfl
@[simp] theorem State.host_present_responses (c : Command) : (s.host (.present c)).responses = s.responses := rfl
@[simp] theorem State.host_collect_commands : (s.host .collect).commands = s.commands := rfl
@[simp] theorem State.host_collect_responses : (s.host .collect).responses = s.responses.tail := rfl
@[simp] theorem State.host_reset_commands : (s.host .reset).commands = [] := rfl
@[simp] theorem State.host_reset_responses : (s.host .reset).responses = [] := rfl
@[simp] theorem State.host_present_maxSeqLen (c : Command) : (s.host (.present c)).maxSeqLen = s.maxSeqLen := rfl
@[simp] theorem State.host_collect_maxSeqLen : (s.host .collect).maxSeqLen = s.maxSeqLen := rfl
@[simp] theorem State.host_reset_maxSeqLen : (s.host .reset).maxSeqLen = s.maxSeqLen := rfl

@[simp] theorem State.resetOf_commands (m : SeqBound) : (State.resetOf m).commands = [] := rfl
@[simp] theorem State.resetOf_responses (m : SeqBound) : (State.resetOf m).responses = [] := rfl
@[simp] theorem State.resetOf_maxSeqLen (m : SeqBound) : (State.resetOf m).maxSeqLen = m := rfl

end Sys2Proof.Machine
end

