-- ==== Sys2Proof/Laws/Answers.lean ====
section
/-! SUPPORT. What `exec` and `step` can answer, said once: later proofs cite these lemmas and unfold no meaning. -/

namespace Sys2Proof.Machine

/-- The response an instruction gets, as a function of the parameter and the instruction alone (10_state.md R25). -/
def responseOf (m : SeqBound) : Instr → Response
  | .rotl32 v n => .scalar (rotateLeft v (amount n))
  | .pack32be b0 b1 b2 b3 => .scalar (packBigEndian (mask8 b0) (mask8 b1) (mask8 b2) (mask8 b3))
  | .bxor a b =>
    if exceeds m a.len || exceeds m b.len then .error .lengthExceeded
    else .sequence (min a.len b.len) (xorBytes a.elems b.elems)
  | .gfmul a b => .scalar ((gfStages 8 (gfStart (mask8 a) (mask8 b))).p.setWidth 32)
  | .txt2b c => if exceeds m c.len then .error .lengthExceeded else .sequence c.len (maskCodepoints c.elems)

theorem answered_complete (s : State) (r : Response) : Answered s r (s.complete r) := ⟨rfl, rfl, rfl⟩

/-- Everything `exec` can do: it answers a next state, with `responseOf`, and a host sees no other change. -/
theorem exec_answers (i : Instr) (s : State) : ∃ t, exec i s = .next t ∧ Answered s (responseOf s.maxSeqLen i) t := by
  cases i with
  | rotl32 v n => exact ⟨_, rfl, answered_complete _ _⟩
  | pack32be b0 b1 b2 b3 => exact ⟨_, rfl, answered_complete _ _⟩
  | gfmul a b => exact ⟨_, rfl, rfl, rfl, rfl⟩
  | bxor a b =>
    simp only [exec, execBxor, responseOf]
    split
    · exact ⟨_, rfl, answered_complete _ _⟩
    · exact ⟨_, rfl, answered_complete _ _⟩
  | txt2b c =>
    simp only [exec, execTxt2b, responseOf]
    split
    · exact ⟨_, rfl, answered_complete _ _⟩
    · exact ⟨_, rfl, answered_complete _ _⟩

theorem Answered.unique {s t : State} {r r' : Response} (h : Answered s r t) (h' : Answered s r' t) : r = r' := by
  have := h.1.symm.trans h'.1
  simpa using this

/-- An instruction is answered with `r` exactly when `r` is its response. -/
theorem exec_answered_iff (i : Instr) (s : State) (r : Response) :
    (∃ t, exec i s = .next t ∧ Answered s r t) ↔ r = responseOf s.maxSeqLen i := by
  obtain ⟨t, ht, ha⟩ := exec_answers i s
  constructor
  · rintro ⟨u, hu, hr⟩
    rw [ht] at hu
    cases hu
    exact hr.unique ha
  · rintro rfl
    exact ⟨t, ht, ha⟩

theorem yieldsWord_iff (i : Instr) (s : State) (w : Word) :
    YieldsWord i s w ↔ Response.mk 0x00#8 w 0 [] = responseOf s.maxSeqLen i := exec_answered_iff i s _

theorem yieldsBytes_iff (i : Instr) (s : State) (out : List Byte) :
    YieldsBytes i s out ↔ Response.mk 0x00#8 0#32 out.length out = responseOf s.maxSeqLen i := exec_answered_iff i s _

theorem yieldsError_iff (i : Instr) (s : State) (st : Byte) :
    YieldsError i s st ↔ Response.mk st 0#32 0 [] = responseOf s.maxSeqLen i := exec_answered_iff i s _

/-- The length check in the terms of R90. -/
theorem exceeds_eq_false_iff (m : SeqBound) (n : Nat) : exceeds m n = false ↔ Within m n := by
  cases m <;> simp [exceeds, Within]

/-- Taking a command from the port. -/
theorem takeCommand_cons {s : State} {c : Command} {rest : List Command} (h : s.commands = c :: rest) :
    s.takeCommand = some { s with commands := rest, latch := c } := by simp [State.takeCommand, h]

/-- The response a command gets when it stands first on the port; none where the step stops. -/
def responseTo (m : SeqBound) (c : Command) : Option Response :=
  match decode c with
  | .ok i => some (responseOf m i)
  | .error .illegalCommand => some (.error .illegalCommand)
  | .error .malformedCommand => none

/-- Everything a step can do with a command on the port: serve it, or fault on a malformed one. -/
theorem step_cons {s : State} {c : Command} {rest : List Command} (h : s.commands = c :: rest) :
    (∃ r t, responseTo s.maxSeqLen c = some r ∧ step s = .next t ∧ t.responses = s.responses ++ [r] ∧
      t.commands = rest ∧ t.maxSeqLen = s.maxSeqLen) ∨
    (responseTo s.maxSeqLen c = none ∧ decode c = .error .malformedCommand ∧ step s = .fault .malformedCommand) := by
  unfold responseTo
  match hd : decode c with
  | .ok i =>
    obtain ⟨t, ht, h1, h2, h3⟩ := exec_answers i { s with commands := rest, latch := c }
    exact .inl ⟨_, t, rfl, by simp only [step, takeCommand_cons h, hd, ht], h1, h2, h3⟩
  | .error .illegalCommand => exact .inl ⟨_, _, rfl, (by simp only [step, takeCommand_cons h, hd, rejectCommand, raiseStatus] : step s = .next
      (State.complete (.error .illegalCommand) { s with commands := rest, latch := c })), rfl, rfl, rfl⟩
  | .error .malformedCommand => exact .inr ⟨rfl, rfl, by simp only [step, takeCommand_cons h, hd, rejectCommand]⟩

/-- A command on the port is served with `r` exactly when `r` is the response to it. -/
theorem serves_iff {s : State} {c : Command} {rest : List Command} (h : s.commands = c :: rest) (r : Response) :
    Serves s r ↔ responseTo s.maxSeqLen c = some r := by
  constructor
  · rintro ⟨t, ht, hr, -, -⟩
    rcases step_cons h with ⟨r', t', h1, h2, h3, -, -⟩ | ⟨-, -, h2⟩
    · rw [ht] at h2
      cases h2
      have := hr.symm.trans h3
      simp only [List.append_cancel_left_eq, List.cons.injEq, and_true] at this
      rw [h1, this]
    · rw [ht] at h2
      cases h2
  · intro hr
    rcases step_cons h with ⟨r', t', h1, h2, h3, h4, h5⟩ | ⟨h1, -, -⟩
    · rw [hr] at h1
      cases h1
      exact ⟨t', h2, h3, by simp [h4, h], h5⟩
    · rw [hr] at h1
      cases h1

/-- A well-formed command is always served. -/
theorem responseTo_wf (m : SeqBound) {c : Command} (h : c.wf = true) : ∃ r, responseTo m c = some r := by
  unfold responseTo
  cases ho : c.op with
  | none => simp [decode_illegal ho]
  | some o => simp [decode_legal ho h]

theorem responseTo_legal (m : SeqBound) {c : Command} {o : Op} (h : c.op = some o) (hw : c.wf = true) :
    responseTo m c = some (responseOf m (o.instr c)) := by simp [responseTo, decode_legal h hw]

theorem responseTo_illegal (m : SeqBound) {c : Command} (h : c.op = none) :
    responseTo m c = some (.error .illegalCommand) := by simp [responseTo, decode_illegal h]

/-- Every response to a well-formed instruction has the form of R45, R47 and R48. -/
theorem responseOf_wf (m : SeqBound) {i : Instr} (h : i.wf = true) : (responseOf m i).Wf := by
  cases i with
  | rotl32 v n => simp [responseOf, Response.scalar, Response.Wf, Status.code]
  | pack32be b0 b1 b2 b3 => simp [responseOf, Response.scalar, Response.Wf, Status.code]
  | gfmul a b => simp [responseOf, Response.scalar, Response.Wf, Status.code]
  | bxor a b =>
    simp only [Instr.wf, Bool.and_eq_true, SeqLane.wf_iff] at h
    simp only [responseOf]
    split <;> simp [Response.error, Response.sequence, Response.Wf, Status.code, xorBytes, h.1, h.2]
  | txt2b c =>
    simp only [Instr.wf, SeqLane.wf_iff] at h
    simp only [responseOf]
    split <;> simp [Response.error, Response.sequence, Response.Wf, Status.code, maskCodepoints, h]

end Sys2Proof.Machine
end

