-- ==== Sys2Proof/Laws/Galois.lean ====
section
/-! SUPPORT. The stages of GFMUL as a sum that is linear in each operand. -/

namespace Sys2Proof.Machine

/-- The multiplicand's part of a stage (43_gf256multiply.md R77). -/
def gfDouble (a : Byte) : Byte := (a <<< 1) ^^^ (if a.getLsbD 7 then reductionConstant else 0#8)

/-- What `n` stages add to the accumulator. -/
def gfSum : Nat → Byte → Byte → Byte
  | 0, _, _ => 0#8
  | n + 1, a, b => (if b.getLsbD 0 then a else 0#8) ^^^ gfSum n (gfDouble a) (b >>> 1)

/-- The accumulator after `n` stages. -/
theorem gfStages_p (n : Nat) (p a b : Byte) : (gfStages n (GfStage.mk p a b)).p = p ^^^ gfSum n a b := by
  induction n generalizing p a b with
  | zero => simp [gfStages, gfSum]
  | succ n ih =>
    rw [gfStages, gfStage, ih, gfSum, BitVec.xor_assoc]
    rfl

/-- The last stage of `n + 1`, seen from the end. -/
theorem gfStages_succ_last (n : Nat) (g : GfStage) : gfStages (n + 1) g = gfStage (gfStages n g) := by
  induction n generalizing g with
  | zero => rfl
  | succ n ih => exact ih (gfStage g)

theorem xor_cancel_left (x y : Byte) : x ^^^ (x ^^^ y) = y := by
  rw [← BitVec.xor_assoc, BitVec.xor_self, BitVec.zero_xor]

theorem gfDouble_xor (a c : Byte) : gfDouble (a ^^^ c) = gfDouble a ^^^ gfDouble c := by
  unfold gfDouble
  rw [BitVec.shiftLeft_xor_distrib, BitVec.getLsbD_xor]
  cases a.getLsbD 7 <;> cases c.getLsbD 7 <;> simp <;>
    first
    | ac_rfl
    | exact (by rw [← xor_cancel_left reductionConstant (a <<< 1 ^^^ c <<< 1)]; ac_rfl)

theorem gfSum_xor_left (n : Nat) (a c b : Byte) : gfSum n (a ^^^ c) b = gfSum n a b ^^^ gfSum n c b := by
  induction n generalizing a c b with
  | zero => simp [gfSum]
  | succ n ih =>
    rw [gfSum, gfSum, gfSum, gfDouble_xor, ih]
    cases b.getLsbD 0
    · simp
    · simp
      ac_rfl

theorem gfSum_xor_right (n : Nat) (a b d : Byte) : gfSum n a (b ^^^ d) = gfSum n a b ^^^ gfSum n a d := by
  induction n generalizing a b d with
  | zero => simp [gfSum]
  | succ n ih =>
    rw [gfSum, gfSum, gfSum, BitVec.ushiftRight_xor_distrib, ih, BitVec.getLsbD_xor]
    cases b.getLsbD 0 <;> cases d.getLsbD 0 <;> simp <;>
      first
      | ac_rfl
      | exact (by rw [← xor_cancel_left a (gfSum n (gfDouble a) (b >>> 1) ^^^ _)]; ac_rfl)

/-- What holds of 0 and of the eight one-bit bytes, and is kept by XOR, holds of every byte. -/
theorem byte_span {P : Byte → Prop} (h0 : P 0#8) (hx : ∀ x y, P x → P y → P (x ^^^ y))
    (hb : ∀ i : Fin 8, P (1#8 <<< i.val)) (b : Byte) : P b := by
  have bit : ∀ i : Fin 8, P (if b.getLsbD i.val then 1#8 <<< i.val else 0#8) := by
    intro i
    split
    · exact hb i
    · exact h0
  have sum : ∀ b : Byte, b = (((if b.getLsbD 0 then 1#8 <<< 0 else 0#8) ^^^ (if b.getLsbD 1 then 1#8 <<< 1 else 0#8)) ^^^
      ((if b.getLsbD 2 then 1#8 <<< 2 else 0#8) ^^^ (if b.getLsbD 3 then 1#8 <<< 3 else 0#8))) ^^^
      (((if b.getLsbD 4 then 1#8 <<< 4 else 0#8) ^^^ (if b.getLsbD 5 then 1#8 <<< 5 else 0#8)) ^^^
      ((if b.getLsbD 6 then 1#8 <<< 6 else 0#8) ^^^ (if b.getLsbD 7 then 1#8 <<< 7 else 0#8))) := by decide
  rw [sum b]
  exact hx _ _ (hx _ _ (hx _ _ (bit 0) (bit 1)) (hx _ _ (bit 2) (bit 3)))
    (hx _ _ (hx _ _ (bit 4) (bit 5)) (hx _ _ (bit 6) (bit 7)))

end Sys2Proof.Machine
end

