-- ==== Sys2Proof/Laws/PerInstr.lean ====
section
/-! SUPPORT. The family EncodedForm: what the encoder gives for a well-formed instruction, constructor by constructor. -/

namespace Sys2Proof.Laws.EncodedForm

/-- The command of a well-formed instruction is well formed (10_state.md R23), and its CMD is legal (30_encoding.md R42). -/
def Statement (i : Instr) : Prop := i.wf = true → (encode i).wf = true ∧ ∃ o : Op, (encode i).op = some o

theorem rotl32 (v s : Word) : Statement (.rotl32 v s) := fun _ => ⟨rfl, .rotl32, (Command.op_eq_some _ _).2 rfl⟩

theorem pack32be (b0 b1 b2 b3 : Word) : Statement (.pack32be b0 b1 b2 b3) := fun _ => ⟨rfl, .pack32be, (Command.op_eq_some _ _).2 rfl⟩

theorem bxor (a b : SeqLane) : Statement (.bxor a b) := by
  intro h
  simp only [Instr.wf, Bool.and_eq_true, SeqLane.wf_iff] at h
  exact ⟨by simp [encode, Command.bare, h.1, h.2], .bxor, (Command.op_eq_some _ _).2 rfl⟩

theorem gfmul (a b : Word) : Statement (.gfmul a b) := fun _ => ⟨rfl, .gfmul, (Command.op_eq_some _ _).2 rfl⟩

theorem txt2b (c : SeqLane) : Statement (.txt2b c) := by
  intro h
  simp only [Instr.wf, SeqLane.wf_iff] at h
  exact ⟨by simp [encode, Command.bare, h], .txt2b, (Command.op_eq_some _ _).2 rfl⟩

end Sys2Proof.Laws.EncodedForm
end

