-- ==== Sys2Proof/Laws/Run.lean ====
section
/-! SUPPORT. Runs of the machine: the step and the induction, packaged once. -/

namespace Sys2Proof.Machine

/-- The first step of a run, and the rest. -/
theorem run_succ (n : Nat) (s t : State) :
    Sys2Proof.core.run (n + 1) s = .next t ↔ ∃ u, step s = .next u ∧ Sys2Proof.core.run n u = .next t := by
  constructor
  · intro h
    simp only [Host.Core.run] at h
    split at h
    · rename_i u hu
      exact ⟨u, hu, h⟩
    · cases h
    · cases h
  · rintro ⟨u, hu, h⟩
    simp only [Host.Core.run]
    rw [show Sys2Proof.core.step s = .next u from hu]
    exact h

/-- What holds at the start and is kept by every step holds after every run that stops nowhere. -/
theorem run_keeps {P : State → Prop} (keep : ∀ s t, P s → step s = .next t → P t) (n : Nat) :
    ∀ s t, P s → Sys2Proof.core.run n s = .next t → P t := by
  induction n with
  | zero =>
    intro s t hs h
    cases h
    exact hs
  | succ n ih =>
    intro s t hs h
    obtain ⟨u, hu, h⟩ := (run_succ n s t).1 h
    exact ih u t (keep s u hs hu) h

end Sys2Proof.Machine
end

