-- ==== Sys2Proof/Machine/Program.lean ====
section
/-! DEFINITION. Host-side names and straight-line programs (30_encoding.md R60). The names are the host's: the block sees
self-contained commands only. -/

namespace Sys2Proof.Machine

/-- A name, written `%name`. -/
abbrev Label := List Char

/-- A scalar operand of a line: an integer, `%name` or `%name[i]` (R57, R60). -/
inductive Arg where
  | int (n : Int)
  | name (x : Label)
  | elem (x : Label) (i : Nat)
deriving DecidableEq, Repr

/-- A sequence operand of a line: `[e0, e1, ...]` or `%name` (R57, R60). -/
inductive SeqArg where
  | list (es : List Arg)
  | name (x : Label)
deriving DecidableEq, Repr

/-- What an operand `%name` stands for: R where the result is scalar, RS where it is a sequence (R60). -/
inductive Value where
  | word (w : Word)
  | bytes (bs : List Byte)
deriving DecidableEq, Repr

/-- A line: `[%name =] mnemonic operand, ...` (R57). -/
structure Line where
  bind : Option Label
  asm  : Asm Arg SeqArg Arg
deriving DecidableEq, Repr

/-- What a name is bound to: "the response of the command on that line" (R60), whole, with the operation that the command
selected; `op` is none where its CMD was illegal. -/
structure Binding where
  op       : Option Op
  response : Response
deriving DecidableEq, Repr

/-- The names a host holds, the newest first. -/
abbrev Names := List (Label × Binding)

/-- A host at its block. -/
structure Session where
  block : State
  names : Names
deriving DecidableEq, Repr

/-- The value of a binding: R or RS of its response, by the "result" column of R49. The response to an illegal command has
no result to stand for. Log 14. -/
def Binding.value (b : Binding) : Option Value :=
  match b.op with
  | none => none
  | some .rotl32 => some (.word b.response.r)
  | some .pack32be => some (.word b.response.r)
  | some .bxor => some (.bytes b.response.rs)
  | some .gfmul => some (.word b.response.r)
  | some .txt2b => some (.bytes b.response.rs)

/-- The response a name is bound to: its newest binding's. -/
def findResponse (names : Names) (x : Label) : Option Response := (names.lookup x).map Binding.response

/-- The value a name stands for: its newest binding's, and none where that has none. -/
def findName (names : Names) (x : Label) : Option Value := (names.lookup x).bind Binding.value

/-- The integer that a scalar operand stands for; none where the name does not stand for a scalar. -/
def Arg.subst (names : Names) : Arg → Option Int
  | .int n => some n
  | .name x =>
    match findName names x with
    | some (.word w) => some w.toNat
    | _ => none
  | .elem x i =>
    match findName names x with
    | some (.bytes bs) => bs[i]?.map fun b => (b.toNat : Int)
    | _ => none

/-- The elements that a sequence operand stands for. -/
def SeqArg.subst (names : Names) : SeqArg → Option (List Int)
  | .list es => es.mapM (Arg.subst names)
  | .name x =>
    match findName names x with
    | some (.bytes bs) => some (bs.map fun b => (b.toNat : Int))
    | _ => none

/-- The byte that `.cmd n` writes as CMD (R58); none where n is no byte. Log 14. -/
def cmdByte (n : Int) : Option Byte := if 0 ≤ n ∧ n < 256 then some (BitVec.ofInt 8 n) else none

/-- "The host substitutes these values before it encodes the command" (R60), in every operand, that of `.cmd` too. -/
def Asm.subst (names : Names) : Asm Arg SeqArg Arg → Option (Asm Int (List Int) Byte)
  | .core (.rotl32 v s) => do return .core (.rotl32 (← v.subst names) (← s.subst names))
  | .core (.pack32be a b c d) => do
    return .core (.pack32be (← a.subst names) (← b.subst names) (← c.subst names) (← d.subst names))
  | .core (.bxor a b) => do return .core (.bxor (← a.subst names) (← b.subst names))
  | .core (.gfmul a b) => do return .core (.gfmul (← a.subst names) (← b.subst names))
  | .core (.txt2b c) => do return .core (.txt2b (← c.subst names))
  | .core (.cmd n) => do return .core (.cmd (← cmdByte (← n.subst names)))
  | .pseudo (.rotr32 v s) => do return .pseudo (.rotr32 (← v.subst names) (← s.subst names))
  | .pseudo (.rotword v) => do return .pseudo (.rotword (← v.subst names))
  | .pseudo (.xtime a) => do return .pseudo (.xtime (← a.subst names))
  | .pseudo (.txt2bText t) => some (.pseudo (.txt2bText t))

/-- The names after a line whose command got the response `r`: `%name = ...` binds the whole response, whatever its status,
and what the name was bound to before is hidden (R60). -/
def bindName (l : Line) (c : Command) (r : Response) (names : Names) : Names :=
  match l.bind with
  | some x => (x, Binding.mk c.op r) :: names
  | none => names

/-- One line: substitute, encode, present, let the block answer, collect. The host has the port to itself (log 14); none
where an operand has no value or the block gives no response. -/
def Line.run (l : Line) (h : Session) : Option Session := do
  let a ← l.asm.subst h.names
  match step (h.block.host (.present a.command)) with
  | .next t =>
    match t.commands, t.responses with
    | [], [r] => some { block := t.host .collect, names := bindName l a.command r h.names }
    | _, _ => none
  | _ => none

/-- "A program is a straight-line list of self-contained commands" (R60). -/
def runLines : List Line → Session → Option Session
  | [], h => some h
  | l :: rest, h => (l.run h).bind (runLines rest)

end Sys2Proof.Machine
end

