-- ==== Sys2Proof/Machine/AsmText.lean ====
section
/-! DEFINITION. Reading a line of assembler text (30_encoding.md R57 to R60):
`[%name =] mnemonic operand, operand, ... [; comment]`. What R57 leaves open about the text is in log 14. -/

namespace Sys2Proof.Machine

/-- The pieces of a line. -/
inductive Token where
  | word (w : List Char)
  | int (n : Int)
  | name (x : Label)
  | text (t : List Char)
  | comma
  | equals
  | openBracket
  | closeBracket
deriving DecidableEq, Repr

/-- A character of a mnemonic, a name or a numeral. -/
def isWordChar (c : Char) : Bool := c.isAlphanum || c == '_' || c == '.'

/-- The value of a digit, of base 10 or 16. -/
def digitValue (base : Nat) (c : Char) : Option Nat :=
  let v := if c.isDigit then c.toNat - 48 else if c.isUpper then c.toNat - 55 else if c.isLower then c.toNat - 87 else base
  if v < base then some v else none

/-- A numeral of at least one digit. -/
def readDigits (base : Nat) (acc : Nat) : List Char → Option Nat
  | [] => some acc
  | c :: rest => (digitValue base c).bind fun d => readDigits base (base * acc + d) rest

/-- "An integer literal is decimal (`-8`, `36`) or hex (`0x1B`, `-0x20`)" (R57); this reads what follows the sign. -/
def readNat (cs : List Char) : Option Nat :=
  match cs with
  | [] => none
  | '0' :: 'x' :: [] => none
  | '0' :: 'x' :: d :: ds => readDigits 16 0 (d :: ds)
  | d :: ds => readDigits 10 0 (d :: ds)

/-- Splits a line into tokens; a comment ends it. `fuel` is the length of the line. -/
def tokens : Nat → List Char → Option (List Token)
  | _, [] => some []
  | 0, _ :: _ => none
  | fuel + 1, c :: rest =>
    let more (t : Token) (r : List Char) : Option (List Token) := (tokens fuel r).map (t :: ·)
    if c = ' ' ∨ c = '\t' then tokens fuel rest
    else if c = ';' then some []
    else if c = ',' then more .comma rest
    else if c = '=' then more .equals rest
    else if c = '[' then more .openBracket rest
    else if c = ']' then more .closeBracket rest
    else if c = '"' then
      match rest.dropWhile (· != '"') with
      | [] => none
      | _ :: after => more (.text (rest.takeWhile (· != '"'))) after
    else if c = '%' then
      if (rest.takeWhile isWordChar).isEmpty then none
      else more (.name (rest.takeWhile isWordChar)) (rest.dropWhile isWordChar)
    else if c = '-' then
      (readNat (rest.takeWhile isWordChar)).bind fun n => more (.int (-(n : Int))) (rest.dropWhile isWordChar)
    else if c.isDigit then
      (readNat (c :: rest.takeWhile isWordChar)).bind fun n => more (.int n) (rest.dropWhile isWordChar)
    else if isWordChar c then more (.word (c :: rest.takeWhile isWordChar)) (rest.dropWhile isWordChar)
    else none

/-- An operand as it is written. -/
inductive Operand where
  | scalar (a : Arg)
  | list (es : List Arg)
  | text (t : List Char)
deriving DecidableEq, Repr

/-- An integer, `%name` or `%name[i]`, and the tokens after it. -/
def readArg : List Token → Option (Arg × List Token)
  | .int n :: rest => some (.int n, rest)
  | .name x :: .openBracket :: .int (.ofNat i) :: .closeBracket :: rest => some (.elem x i, rest)
  | .name x :: rest => some (.name x, rest)
  | _ => none

/-- The elements of a sequence after its first, up to its closing bracket. -/
def readElems : Nat → List Token → Option (List Arg × List Token)
  | _, .closeBracket :: rest => some ([], rest)
  | fuel + 1, .comma :: rest =>
    (readArg rest).bind fun (a, r) => (readElems fuel r).map fun (as, r') => (a :: as, r')
  | _, _ => none

/-- One operand and the tokens after it. -/
def readOperand (ts : List Token) : Option (Operand × List Token) :=
  match ts with
  | .text t :: rest => some (.text t, rest)
  | .openBracket :: .closeBracket :: rest => some (.list [], rest)
  | .openBracket :: rest =>
    (readArg rest).bind fun (a, r) => (readElems r.length r).map fun (as, r') => (.list (a :: as), r')
  | _ => (readArg ts).map fun (a, r) => (.scalar a, r)

/-- The operands after the first, each after a comma, to the end of the line. -/
def readMore : Nat → List Token → Option (List Operand)
  | _, [] => some []
  | fuel + 1, .comma :: rest => (readOperand rest).bind fun (o, r) => (readMore fuel r).map (o :: ·)
  | _, _ => none

/-- All operands of a line. -/
def readOperands (ts : List Token) : Option (List Operand) :=
  match ts with
  | [] => some []
  | _ => (readOperand ts).bind fun (o, r) => (readMore r.length r).map (o :: ·)

/-- A sequence position takes a list or a name (R60). -/
def Operand.seq : Operand → Option SeqArg
  | .list es => some (.list es)
  | .scalar (.name x) => some (.name x)
  | _ => none

/-- R58 and R59: the operands each mnemonic takes. -/
def readAsm (m : List Char) (ops : List Operand) : Option (Asm Arg SeqArg Arg) :=
  if m = ['r', 'o', 't', 'l', '3', '2'] then
    match ops with
    | [.scalar v, .scalar s] => some (.core (.rotl32 v s))
    | _ => none
  else if m = ['p', 'a', 'c', 'k', '3', '2', 'b', 'e'] then
    match ops with
    | [.scalar a, .scalar b, .scalar c, .scalar d] => some (.core (.pack32be a b c d))
    | _ => none
  else if m = ['b', 'x', 'o', 'r'] then
    match ops with
    | [a, b] => a.seq.bind fun x => b.seq.map fun y => .core (.bxor x y)
    | _ => none
  else if m = ['g', 'f', 'm', 'u', 'l'] then
    match ops with
    | [.scalar a, .scalar b] => some (.core (.gfmul a b))
    | _ => none
  else if m = ['t', 'x', 't', '2', 'b'] then
    match ops with
    | [.text t] => some (.pseudo (.txt2bText t))
    | [c] => c.seq.map fun x => .core (.txt2b x)
    | _ => none
  else if m = ['.', 'c', 'm', 'd'] then
    match ops with
    | [.scalar n] => some (.core (.cmd n))
    | _ => none
  else if m = ['r', 'o', 't', 'r', '3', '2'] then
    match ops with
    | [.scalar v, .scalar s] => some (.pseudo (.rotr32 v s))
    | _ => none
  else if m = ['r', 'o', 't', 'w', 'o', 'r', 'd'] then
    match ops with
    | [.scalar v] => some (.pseudo (.rotword v))
    | _ => none
  else if m = ['x', 't', 'i', 'm', 'e'] then
    match ops with
    | [.scalar a] => some (.pseudo (.xtime a))
    | _ => none
  else none

/-- The line that a text spells (R57); none where it spells none. -/
def readLine (cs : List Char) : Option Line :=
  (tokens cs.length cs).bind fun ts =>
    match ts with
    | .name x :: .equals :: .word m :: rest =>
      (readOperands rest).bind fun ops => (readAsm m ops).map fun a => Line.mk (some x) a
    | .word m :: rest => (readOperands rest).bind fun ops => (readAsm m ops).map fun a => Line.mk none a
    | _ => none

end Sys2Proof.Machine
end

