-- ==== Sys2Proof/Tests/Slice0.lean ====
section
/-! SUPPORT. The model's own tests. Expected results are those of spec/95_test_vectors.md and of the rules named; the last
part gives, for every obligation with hypotheses, a concrete state and operands that meet them. -/

namespace Sys2Proof.Tests

open Sys2Proof Sys2Proof.Machine

/-- An instance after reset with these commands on its port. -/
def port (m : SeqBound) (cs : List Command) : State := { State.resetOf m with commands := cs }

/-- The response of one step on one command. -/
def served (m : SeqBound) (c : Command) : Option Response :=
  match step (port m [c]) with
  | .next t => t.responses.head?
  | _ => none

def ok (w : Word) : Option Response := some (Response.mk 0x00#8 w 0 [])

def okBytes (out : List Byte) : Option Response := some (Response.mk 0x00#8 0#32 out.length out)

def err (st : Byte) : Option Response := some (Response.mk st 0#32 0 [])

def scalars (cmd : Byte) (x0 x1 x2 x3 : Word) : Command := Command.mk cmd x0 x1 x2 x3 0 0 []

def sequences (cmd : Byte) (a b : List Word) : Command := Command.mk cmd 0#32 0#32 0#32 0#32 a.length b.length (a ++ b)

/-! ### Decoding: words written out from R41, R42, R49 and R56 -/

/-- S1: CMD = RSV 00000, OPC 001. -/
theorem test_decode_rotl32 : decode (scalars (0b00000#5 ++ 0b001#3) 0x12345678#32 0x00000004#32 0#32 0#32) =
    .ok (.rotl32 0x12345678#32 0x00000004#32) := by decide

/-- S4: OPC 010. -/
theorem test_decode_pack32be : decode (scalars (0b00000#5 ++ 0b010#3) 0x12#32 0x34#32 0x56#32 0x78#32) =
    .ok (.pack32be 0x12#32 0x34#32 0x56#32 0x78#32) := by decide

/-- S7: OPC 011; LA = 2 splits the five elements. -/
theorem test_decode_bxor : decode (Command.mk (0b00000#5 ++ 0b011#3) 7#32 7#32 7#32 7#32 2 3
      [0x12#32, 0x34#32, 0x56#32, 0x78#32, 0x9A#32]) =
    .ok (.bxor (SeqLane.mk 2 [0x12#32, 0x34#32]) (SeqLane.mk 3 [0x56#32, 0x78#32, 0x9A#32])) := by decide

/-- G1: OPC 100; X2, X3, SA and SB are ignored. -/
theorem test_decode_gfmul : decode (Command.mk (0b00000#5 ++ 0b100#3) 0x57#32 0x83#32 9#32 9#32 1 0 [9#32]) =
    .ok (.gfmul 0x57#32 0x83#32) := by decide

/-- T2: OPC 101; SB is ignored. -/
theorem test_decode_txt2b : decode (Command.mk (0b00000#5 ++ 0b101#3) 0#32 0#32 0#32 0#32 2 1 [0x48#32, 0x69#32, 5#32]) =
    .ok (.txt2b (SeqLane.mk 2 [0x48#32, 0x69#32])) := by decide

/-- E1 to E6: the illegal bytes of 95_test_vectors.md. -/
theorem test_decode_illegal : ∀ b ∈ [0x00#8, 0x06#8, 0x07#8, 0x09#8, 0x81#8, 0xFF#8],
    decode (scalars b 1#32 2#32 0#32 0#32) = .error .illegalCommand := by decide

/-- The five rows of the table, by their numbers, and the bytes beside them. -/
theorem test_decodeTableWord : decodeTableWord 8 0x00 = none ∧ decodeTableWord 8 0x01 = some (.rotl32 0#32 0#32) ∧
    decodeTableWord 8 0x02 = some (.pack32be 0#32 0#32 0#32 0#32) ∧
    decodeTableWord 8 0x03 = some (.bxor (SeqLane.mk 0 []) (SeqLane.mk 0 [])) ∧
    decodeTableWord 8 0x04 = some (.gfmul 0#32 0#32) ∧ decodeTableWord 8 0x05 = some (.txt2b (SeqLane.mk 0 [])) ∧
    decodeTableWord 8 0x06 = none ∧
    decodeTableWord 72 0x000000041234567801 = some (.rotl32 0x12345678#32 4#32) := by decide

/-! ### Well-formedness: an ill-formed term for each check -/

theorem test_wf_bxor_refuses_short_a : (Instr.bxor (SeqLane.mk 2 [1#32]) (SeqLane.mk 0 [])).wf = false := by decide

theorem test_wf_bxor_refuses_long_b : (Instr.bxor (SeqLane.mk 0 []) (SeqLane.mk 0 [1#32])).wf = false := by decide

theorem test_wf_txt2b_refuses_short : (Instr.txt2b (SeqLane.mk 1 [])).wf = false := by decide

theorem test_wf_command_refuses_missing_element : (Command.mk 0x01#8 0#32 0#32 0#32 0#32 1 1 [0#32]).wf = false := by decide

/-! ### The five operations -/

/-- V5, V3: a negative amount rotates right; a negative multiple of 32 leaves v. -/
theorem test_rotl32_negative : served .unbounded (scalars 0x01#8 0x12345678#32 0xFFFFFFFC#32 0#32 0#32) = ok 0x81234567#32 ∧
    served .unbounded (scalars 0x01#8 0x12345678#32 0xFFFFFFE0#32 0#32 0#32) = ok 0x12345678#32 := by decide

/-- V12, and E9 with its ignored, over-long SA. -/
theorem test_rotl32_wraps : served .unbounded (scalars 0x01#8 0x80000001#32 1#32 0#32 0#32) = ok 0x00000003#32 ∧
    served (.bounded 2) (Command.mk 0x01#8 0x12345678#32 4#32 0#32 0#32 5 0 [1#32, 2#32, 3#32, 4#32, 5#32]) =
      ok 0x23456781#32 := by decide

/-- K7: lanes above a byte, a negative integer among them. -/
theorem test_pack32be_masks : served .unbounded (scalars 0x02#8 0xFFFFFF80#32 0x7F#32 0x100#32 0x1FF#32) = ok 0x807F00FF#32 := by
  decide

/-- K4: the order of the bytes. -/
theorem test_pack32be_order : served .unbounded (scalars 0x02#8 0xDE#32 0xAD#32 0xBE#32 0xEF#32) = ok 0xDEADBEEF#32 := by decide

/-- S7, B5: truncation to the shorter sequence, and masking. -/
theorem test_bxor_truncates_and_masks :
    served .unbounded (sequences 0x03#8 [0x12#32, 0x34#32] [0x56#32, 0x78#32, 0x9A#32]) = okBytes [0x44#8, 0x4C#8] ∧
    served .unbounded (sequences 0x03#8 [0x1FF#32, 0x100#32] [0x0F#32, 0xFFFFFF01#32]) = okBytes [0xF0#8, 0x01#8] := by decide

/-- 95_test_vectors.md, BXOR with MAX_SEQ_LEN = 2: the discarded tail counts. -/
theorem test_bxor_length : served (.bounded 2) (sequences 0x03#8 [1#32] [1#32, 2#32, 3#32]) = err 0x02#8 ∧
    served (.bounded 2) (sequences 0x03#8 [1#32, 2#32] [3#32, 4#32]) = okBytes [0x02#8, 0x06#8] := by decide

/-- G17, G4: the masked lane, and the reduction. -/
theorem test_gfmul_products : served .unbounded (scalars 0x04#8 0xFFFFFF57#32 0x83#32 0#32 0#32) = ok 0xC1#32 ∧
    served .unbounded (scalars 0x04#8 0x80#32 0x02#32 0#32 0#32) = ok 0x1B#32 := by decide

/-- R77's trace of 0x57 · 0x83 after stages 1 and 7; 90_conflicts.md C4's counter-vector. -/
theorem test_gfmul_stages : gfStages 2 (gfStart 0x57#8 0x83#8) = GfStage.mk 0xF9#8 0x47#8 0x20#8 ∧
    gfStages 8 (gfStart 0x57#8 0x83#8) = GfStage.mk 0xC1#8 0x70#8 0x00#8 ∧
    (gfStages 8 (gfStart 0x01#8 0x80#8)).p = 0x80#8 := by decide

/-- T4, T6: aliasing, and 0x00 as an ordinary element. -/
theorem test_txt2b_aliases : served .unbounded (sequences 0x05#8 [0x100#32, 0x20AC#32] []) = okBytes [0x00#8, 0xAC#8] ∧
    served .unbounded (sequences 0x05#8 [0xFFFFFFFF#32, 0#32] []) = okBytes [0xFF#8, 0x00#8] := by decide

/-- 95_test_vectors.md, TXT2B with MAX_SEQ_LEN = 2: LA is checked, LB is not. -/
theorem test_txt2b_length : served (.bounded 2) (sequences 0x05#8 [0x41#32, 0x42#32, 0x43#32] []) = err 0x02#8 ∧
    served (.bounded 2) (sequences 0x05#8 [0x41#32, 0x42#32] [1#32, 2#32, 3#32, 4#32, 5#32]) = okBytes [0x41#8, 0x42#8] := by
  decide

/-- E7, E8: an illegal CMD wins over over-long sequences. -/
theorem test_priority :
    served (.bounded 2) (sequences 0x0B#8 [1#32, 2#32, 3#32, 4#32, 5#32] []) = err 0x01#8 ∧
    served (.bounded 2) (sequences 0x03#8 [1#32, 2#32, 3#32] [1#32, 2#32, 3#32]) = err 0x02#8 := by decide

/-! ### The assembler and host-side names -/

/-- Program P1, line 10: names as a sequence and as elements. -/
theorem test_readLine_names : readLine "%f = bxor %e, [0x53, %t2, %g[1]] ; x".toList =
    some (Line.mk (some ['f']) (.core (.bxor (.name ['e']) (.list [.int 0x53, .name ['t', '2'], .elem ['g'] 1])))) := by decide

/-- Program P3, line 1, and R57's negative hex literal. -/
theorem test_readLine_text : readLine "%b = txt2b \"Hi\" ; Hi".toList =
      some (Line.mk (some ['b']) (.pseudo (.txt2bText ['H', 'i']))) ∧
    readLine "rotr32 -8, -0x20".toList = some (Line.mk none (.pseudo (.rotr32 (.int (-8)) (.int (-32))))) := by decide

/-- V5's encoding as R60 writes it, and B1's. -/
theorem test_commandText :
    commandText (Mnemonic.rotl32 0x12345678 (-4)).command = "CMD=0x01 X0=0x12345678 X1=0xFFFFFFFC".toList ∧
    commandText (Mnemonic.bxor [] [1, 2]).command = "CMD=0x03 LB=2 SB=[0x00000001, 0x00000002]".toList := by decide

/-- Program P3, line 4: `xtime %c[0]` with %c = [0x68, 0x49, 0x8C]. -/
theorem test_line_uses_earlier_result :
    ((Line.mk (some ['x']) (.pseudo (.xtime (.elem ['c'] 0)))).run
        (Session.mk (State.resetOf .unbounded)
          [(['c'], Binding.mk (some .bxor) (Response.mk 0x00#8 0#32 3 [0x68#8, 0x49#8, 0x8C#8]))])).map
      (fun h => (findResponse h.names ['x'], findName h.names ['x'], h.block.responses)) =
    some (some (Response.mk 0x00#8 0xD0#32 0 []), some (.word 0xD0#32), []) := by decide

/-- Program P3, line 5: `%q = .cmd 0x06` binds the error response, over what %q was bound to; earlier names stay (R60, R94). -/
theorem test_line_binds_error_response :
    ((Line.mk (some ['q']) (.core (.cmd (.int 6)))).run
        (Session.mk (State.resetOf .unbounded)
          [(['q'], Binding.mk (some .gfmul) (Response.mk 0x00#8 7#32 0 [])),
            (['x'], Binding.mk (some .gfmul) (Response.mk 0x00#8 0xD0#32 0 []))])).map
      (fun h => (findResponse h.names ['q'], findName h.names ['q'], findName h.names ['x'])) =
    some (some (Response.mk 0x01#8 0#32 0 []), none, some (.word 0xD0#32)) := by decide

/-- R58, R60: `.cmd` takes a name and an element as every mnemonic does, and no number that is not a byte. -/
theorem test_cmd_takes_names :
    let names : Names := [(['x'], Binding.mk (some .gfmul) (Response.mk 0x00#8 0x81#32 0 [])),
      (['c'], Binding.mk (some .bxor) (Response.mk 0x00#8 0#32 2 [0x68#8, 0x07#8]))]
    let assembled (text : List Char) : Option Command :=
      (readLine text).bind fun l => (l.asm.subst names).map Asm.command
    assembled ".cmd %x".toList = some (Command.bare 0x81#8) ∧ assembled ".cmd %c[1]".toList = some (Command.bare 0x07#8) ∧
      assembled ".cmd 0xFF".toList = some (Command.bare 0xFF#8) ∧ assembled ".cmd 0x100".toList = none := by decide

/-! ### Witnesses: states and operands that meet the obligations' hypotheses -/

/-- A command of each operation, and a state with commands of both kinds of error before it. -/
def rot : Command := scalars 0x01#8 0x12345678#32 0xFFFFFFFC#32 5#32 5#32
def pak : Command := scalars 0x02#8 0x112#32 0x34#32 0x56#32 0x78#32
def xor2 : Command := sequences 0x03#8 [0x12#32, 0x1FF#32] [0x56#32]
def gfm : Command := scalars 0x04#8 0x57#32 0x83#32 5#32 5#32
def txt2 : Command := sequences 0x05#8 [0x100#32, 0x48#32] []
def bad : Command := scalars 0x06#8 1#32 2#32 0#32 0#32
def mixed : State := port (.bounded 2) [bad, rot, pak, xor2, gfm, txt2]

/-- DecodeOfEncodeIsIdentity, BxorCompletes, BxorIsSelfInverse, Txt2bCompletes: at MAX_SEQ_LEN and with byte elements. -/
theorem witness_sequences_within : (Instr.bxor (SeqLane.mk 1 [7#32]) (SeqLane.mk 2 [1#32, 2#32])).wf = true ∧
    (SeqLane.mk 1 [7#32]).wf = true ∧ (SeqLane.mk 2 [1#32, 2#32]).wf = true ∧
    (SeqLane.mk 1 [7#32]).len ≤ (SeqLane.mk 2 [1#32, 2#32]).len ∧
    Within (port (.bounded 2) []).maxSeqLen 1 ∧ Within (port (.bounded 2) []).maxSeqLen 2 ∧
    ∀ e ∈ (SeqLane.mk 1 [7#32]).elems, e.toNat < 256 := by
  refine ⟨by decide, by decide, by decide, by decide, ?_, ?_, ?_⟩
  · intro k hk
    cases hk
    decide
  · intro k hk
    cases hk
    decide
  · intro e he
    cases List.mem_singleton.1 he
    simp

/-- EncodeOfDecodeKeepsReadLanes, StepRunsDecodedInstruction. -/
theorem witness_decoded : (port .unbounded [gfm]).commands = gfm :: [] ∧ decode gfm = .ok (.gfmul 0x57#32 0x83#32) := by decide

/-- IllegalCommandsAreAnswered, at the bytes beside the legal ones. -/
theorem witness_illegal : ∀ b ∈ [0x00#8, 0x06#8, 0xFF#8],
    (port .unbounded [scalars b 0#32 0#32 0#32 0#32]).commands = scalars b 0#32 0#32 0#32 0#32 :: [] ∧
    b ∉ [0x01#8, 0x02#8, 0x03#8, 0x04#8, 0x05#8] := by decide

/-- IgnoredLanesDoNotAffectResponse: TXT2B with another SB and other scalar lanes. -/
theorem witness_ignored_lanes :
    let c := txt2
    let c' := Command.mk 0x05#8 1#32 2#32 3#32 4#32 2 1 [0x100#32, 0x48#32, 9#32]
    (port (.bounded 2) [c]).commands = c :: [] ∧ (port (.bounded 2) [c']).commands = c' :: [] ∧
    (port (.bounded 2) [c]).maxSeqLen = (port (.bounded 2) [c']).maxSeqLen ∧
    c.op = some .txt2b ∧ c'.op = some .txt2b ∧ c'.wf = true ∧ sameReadLanes .txt2b c c' ∧
    Serves (port (.bounded 2) [c]) (Response.mk 0x00#8 0#32 2 [0x00#8, 0x48#8]) :=
  ⟨rfl, rfl, rfl, by decide, by decide, by decide, rfl, _, rfl, rfl, rfl, rfl⟩

/-- Rotl32MeetsContract: s = −4. -/
theorem witness_rotl32 : (port .unbounded [rot]).commands = rot :: [] ∧ rot.wf = true ∧ rot.cmd = 0x01#8 ∧
    rot.x1 = BitVec.ofNat 32 ((-4 : Int) % 2 ^ 32).toNat := by decide

/-- Pack32beIsBigEndian. -/
theorem witness_pack32be : (port .unbounded [pak]).commands = pak :: [] ∧ pak.wf = true ∧ pak.cmd = 0x02#8 := by decide

/-- BxorMeetsContract, ChecksAreMadeInOrder: both clauses at the boundary, MAX_SEQ_LEN = 2 and 1 with LA = 2. -/
theorem witness_bxor : (port (.bounded 2) [xor2]).commands = xor2 :: [] ∧ xor2.wf = true ∧ xor2.cmd = 0x03#8 ∧
    (Within (port (.bounded 2) [xor2]).maxSeqLen xor2.la ∧ Within (port (.bounded 2) [xor2]).maxSeqLen xor2.lb) ∧
    ¬Within (port (.bounded 1) [xor2]).maxSeqLen xor2.la := by
  refine ⟨rfl, by decide, rfl, ⟨?_, ?_⟩, ?_⟩
  · intro k hk
    cases hk
    decide
  · intro k hk
    cases hk
    decide
  · intro h
    exact absurd (h 1 rfl) (by decide)

/-- BxorLanesAreIndependent: two BXORs that agree at index 1 only. -/
theorem witness_bxor_lanes :
    YieldsBytes (.bxor (SeqLane.mk 2 [1#32, 3#32]) (SeqLane.mk 2 [2#32, 5#32])) State.reset [0x03#8, 0x06#8] ∧
    YieldsBytes (.bxor (SeqLane.mk 2 [9#32, 3#32]) (SeqLane.mk 3 [0#32, 5#32, 7#32])) State.reset [0x09#8, 0x06#8] :=
  ⟨⟨_, rfl, rfl, rfl, rfl⟩, ⟨_, rfl, rfl, rfl, rfl⟩⟩

/-- GfmulRunsEightStages: R77's trace of 0x57 · 0x83. -/
theorem witness_gfmul :
    let p (k : Nat) : Byte := [0x00#8, 0x57#8, 0xF9#8, 0xF9#8, 0xF9#8, 0xF9#8, 0xF9#8, 0xF9#8, 0xC1#8].getD k 0#8
    let a (k : Nat) : Byte := [0x57#8, 0xAE#8, 0x47#8, 0x8E#8, 0x07#8, 0x0E#8, 0x1C#8, 0x38#8, 0x70#8].getD k 0#8
    let b (k : Nat) : Byte := [0x83#8, 0x41#8, 0x20#8, 0x10#8, 0x08#8, 0x04#8, 0x02#8, 0x01#8, 0x00#8].getD k 0#8
    (port .unbounded [gfm]).commands = gfm :: [] ∧ gfm.wf = true ∧ gfm.cmd = 0x04#8 ∧
    p 0 = 0x00#8 ∧ a 0 = gfm.x0.extractLsb' 0 8 ∧ b 0 = gfm.x1.extractLsb' 0 8 ∧
    (∀ k, k < 8 → p (k + 1) = p k ^^^ (if (b k).getLsbD 0 then a k else 0x00#8)) ∧
    (∀ k, k < 8 → a (k + 1) = (a k <<< 1) ^^^ (if (a k).getLsbD 7 then 0x1B#8 else 0x00#8)) ∧
    (∀ k, k < 8 → b (k + 1) = b k >>> 1) := by decide

/-- GfmulObeysFieldLaws: a lane whose byte is not zero, the smallest and the largest. -/
theorem witness_nonzero_byte : (0x101#32).extractLsb' 0 8 ≠ 0#8 ∧ (0xFFFFFFFF#32).extractLsb' 0 8 ≠ 0#8 := by decide

/-- Txt2bMasksEachCodepoint, ChecksAreMadeInOrder: both clauses at the boundary. -/
theorem witness_txt2b : (port (.bounded 2) [txt2]).commands = txt2 :: [] ∧ txt2.wf = true ∧ txt2.cmd = 0x05#8 ∧
    Within (port (.bounded 2) [txt2]).maxSeqLen txt2.la ∧ ¬Within (port (.bounded 1) [txt2]).maxSeqLen txt2.la := by
  refine ⟨rfl, by decide, rfl, ?_, ?_⟩
  · intro k hk
    cases hk
    decide
  · intro h
    exact absurd (h 1 rfl) (by decide)

/-- LengthExceededExactly: lengths at MAX_SEQ_LEN = 2 exactly, for BXOR and for TXT2B. -/
theorem witness_at_bound : (SeqLane.mk 2 [1#32, 2#32]).wf = true ∧ (port (.bounded 2) []).maxSeqLen = .bounded 2 ∧
    (SeqLane.mk 2 [1#32, 2#32]).len = 2 ∧ Within (port (.bounded 2) []).maxSeqLen (SeqLane.mk 2 [1#32, 2#32]).len := by
  refine ⟨by decide, rfl, rfl, ?_⟩
  intro k hk
  cases hk
  decide

/-- LengthExceededExactly: one element too many in a, in b, in the codepoints; and an unbounded instance. -/
theorem witness_too_long : (port (.bounded 1) []).maxSeqLen = .bounded 1 ∧
    (1 < (SeqLane.mk 2 [1#32, 2#32]).len ∨ 1 < (SeqLane.mk 0 []).len) ∧
    (1 < (SeqLane.mk 0 []).len ∨ 1 < (SeqLane.mk 2 [1#32, 2#32]).len) ∧ (SeqLane.mk 2 [1#32, 2#32]).wf = true ∧
    (port .unbounded []).maxSeqLen = .unbounded := by decide

/-- ChecksAreMadeInOrder: the boundary values of its first and last clauses. -/
theorem witness_order : ∀ b ∈ [0x00#8, 0x06#8, 0x01#8, 0x02#8, 0x04#8],
    (port .unbounded [scalars b 0#32 0#32 0#32 0#32]).commands = scalars b 0#32 0#32 0#32 0#32 :: [] ∧
    (scalars b 0#32 0#32 0#32 0#32).wf = true ∧
    (((b = 0x00#8 ∨ 0x05#8 < b)) ∨ (b = 0x01#8 ∨ b = 0x02#8 ∨ b = 0x04#8)) := by decide

/-- EveryResponseIsFullyDetermined, StepKeepsInvariant, ParameterNeverChanges, InternalStateIsUnobservable: a step that
answers. -/
theorem witness_step : ∀ c ∈ [rot, pak, xor2, gfm, txt2, bad], (port (.bounded 2) [c]).commands = c :: [] ∧
    (match step (port (.bounded 2) [c]) with | .next _ => true | _ => false) = true := by decide

/-- The invariant, the clean response port and the legal commands of LegalCommandsRunWithoutErrorResponse. -/
theorem witness_legal_run : (port (.bounded 2) [rot, xor2]).Inv ∧ (port (.bounded 2) [rot, xor2]).NoErrorResponse ∧
    ∀ c ∈ (port (.bounded 2) [rot, xor2]).commands, c.cmd ∈ [0x01#8, 0x02#8, 0x03#8, 0x04#8, 0x05#8] ∧
      Within (port (.bounded 2) [rot, xor2]).maxSeqLen c.la ∧ Within (port (.bounded 2) [rot, xor2]).maxSeqLen c.lb := by
  have small : ∀ c ∈ [rot, xor2], (c.wf = true ∧ c.cmd ∈ [0x01#8, 0x02#8, 0x03#8, 0x04#8, 0x05#8]) ∧ c.la ≤ 2 ∧ c.lb ≤ 2 := by
    decide
  refine ⟨⟨fun c hc => (small c hc).1.1, fun r hr => (List.not_mem_nil hr).elim⟩, fun r hr => (List.not_mem_nil hr).elim,
    fun c hc => ⟨(small c hc).1.2, fun k hk => ?_, fun k hk => ?_⟩⟩ <;> cases hk
  · exact (small c hc).2.1
  · exact (small c hc).2.2

/-- RunAnswersEveryCommandInOrder, EveryCommandCompletes, InterleavingChangesNoResponse, HostActionsKeepInvariant: the
invariant with all five operations and an illegal command on the port, in two orders. -/
theorem witness_inv : mixed.Inv ∧ (port (.bounded 2) mixed.commands.reverse).Inv ∧ mixed.responses = [] ∧
    mixed.maxSeqLen = (port (.bounded 2) mixed.commands.reverse).maxSeqLen ∧
    mixed.commands.Perm (port (.bounded 2) mixed.commands.reverse).commands ∧ 6 ≤ mixed.commands.length ∧ rot.wf = true := by
  have wf : ∀ c ∈ [bad, rot, pak, xor2, gfm, txt2], c.wf = true := by decide
  exact ⟨⟨wf, fun r hr => (List.not_mem_nil hr).elim⟩,
    ⟨fun c hc => wf c (List.mem_reverse.1 hc), fun r hr => (List.not_mem_nil hr).elim⟩, rfl, rfl,
    (List.reverse_perm _).symm, by decide, by decide⟩

/-- ErrorResponseHasNoLaterEffect: an illegal command before a ROTL32. -/
theorem witness_error_then_command : ∃ t, (port .unbounded [bad, rot]).commands = bad :: rot :: [] ∧
    step (port .unbounded [bad, rot]) = .next t ∧
    t.responses = (port .unbounded [bad, rot]).responses ++ [Response.mk 0x01#8 0#32 0 []] ∧ (0x01#8 : Byte) ≠ 0x00#8 :=
  ⟨_, rfl, rfl, rfl, by decide⟩

/-- StepStopsOnlyOnMalformedCommand: the fault is reached. -/
theorem witness_malformed : ∃ c rest, (port .unbounded [Command.mk 0x01#8 0#32 0#32 0#32 0#32 1 0 []]).commands = c :: rest ∧
    c.cmd ∈ [0x01#8, 0x02#8, 0x03#8, 0x04#8, 0x05#8] ∧ c.elems.length ≠ c.la + c.lb ∧
    step (port .unbounded [Command.mk 0x01#8 0#32 0#32 0#32 0#32 1 0 []]) = .fault .malformedCommand :=
  ⟨_, _, rfl, by decide, by decide, rfl⟩

/-- ResponseDependsOnlyOnCommand: the same command after another response, with another waiting behind it. -/
theorem witness_same_command :
    let s' : State := { port .unbounded [rot, gfm] with responses := [Response.mk 0x01#8 0#32 0 []], freeCount := 7 }
    (port .unbounded [rot]).commands = rot :: [] ∧ s'.commands = rot :: [gfm] ∧ (port .unbounded [rot]).maxSeqLen = s'.maxSeqLen ∧
    Serves (port .unbounded [rot]) (Response.mk 0x00#8 0x81234567#32 0 []) :=
  ⟨rfl, rfl, rfl, _, rfl, rfl, rfl, rfl⟩

/-- InternalStateIsUnobservable: two states that differ in the stage state and the counter only, and a run of one step. -/
theorem witness_hidden : ∃ t, (port .unbounded [gfm]).visible =
      ({ port .unbounded [gfm] with stage := GfStage.mk 1#8 2#8 3#8, freeCount := 9 } : State).visible ∧
    Sys2Proof.core.run 1 (port .unbounded [gfm]) = .next t := ⟨_, rfl, rfl⟩

/-- RepeatedCommandGetsEqualResponse. -/
theorem witness_repeated : (port (.bounded 1) [xor2, xor2]).commands = xor2 :: xor2 :: [] ∧ xor2.wf = true := by decide

/-- IdleStepChangesNothing; HostActionsKeepInvariant holds there too. -/
theorem witness_idle : State.reset.commands = [] := rfl

/-- Rotr32RotatesRight, RotwordRotatesOneByte, XtimeDoubles, TextBecomesLowBytes. -/
theorem witness_assembled :
    (∀ p ∈ [Pseudo.rotr32 (0x09CF4F3C : Int) (-8), .rotword (-1), .xtime (-0xA9), .txt2bText ['H', '€']],
      (port (.bounded 2) [(Asm.pseudo p).command]).commands = (Asm.pseudo p).command :: []) ∧
    Within (port (.bounded 2) []).maxSeqLen ['H', '€'].length :=
  ⟨fun _ _ => rfl, fun k hk => by cases hk; decide⟩

end Sys2Proof.Tests
end

/-! The parameter of the instance: a step, a run and a host's action leave MAX_SEQ_LEN as it was (00_scope.md R12, R21). -/

namespace Sys2Proof.Machine

/-- Taking a command from an empty port. -/
theorem takeCommand_nil {s : State} (h : s.commands = []) : s.takeCommand = none := by simp [State.takeCommand, h]

/-- Everything a step can do with no command on the port: nothing (log 5). -/
theorem step_nil {s : State} (h : s.commands = []) : step s = .next s := by simp [step, takeCommand_nil h, idle]

theorem step_maxSeqLen {s t : State} (h : step s = .next t) : t.maxSeqLen = s.maxSeqLen := by
  cases hc : s.commands with
  | nil =>
    rw [step_nil hc] at h
    cases h
    rfl
  | cons c rest =>
    rcases step_cons hc with ⟨_, u, -, hu, -, -, hm⟩ | ⟨-, -, hf⟩
    · rw [hu] at h
      cases h
      exact hm
    · rw [hf] at h
      cases h

theorem run_maxSeqLen {n : Nat} {s t : State} (h : Sys2Proof.core.run n s = .next t) : t.maxSeqLen = s.maxSeqLen :=
  run_keeps (P := fun u => u.maxSeqLen = s.maxSeqLen) (fun _ _ hu hs => (step_maxSeqLen hs).trans hu) n s t rfl h

@[simp] theorem State.host_maxSeqLen (s : State) (a : HostAction) : (s.host a).maxSeqLen = s.maxSeqLen := by
  cases a with
  | present c => exact s.host_present_maxSeqLen c
  | collect => exact s.host_collect_maxSeqLen
  | reset => exact s.host_reset_maxSeqLen

/-- Settles O43: every step keeps the parameter, so every run does; each host action keeps it too. -/
theorem parameterNeverChanges : Obligations.ParameterNeverChanges :=
  ⟨fun _ _ _ h => run_maxSeqLen h, fun a s => s.host_maxSeqLen a⟩

end Sys2Proof.Machine

/-! What the ports keep and what the whole block answers: R25's function, step by step and over a run of any length. -/

namespace Sys2Proof

/-- The decoder stops exactly on a legal CMD with a malformed command (log 10). -/
theorem decode_eq_malformed {c : Command} :
    decode c = .error .malformedCommand ↔ c.op ≠ none ∧ c.wf = false := by
  cases ho : c.op with
  | none => simp [decode_illegal ho]
  | some o =>
    cases hw : c.wf with
    | true => simp [decode_legal ho hw]
    | false => simp [decode_malformed ho hw]

theorem encode_wf {i : Instr} (h : i.wf = true) : (encode i).wf = true := by
  cases i with
  | rotl32 v s => exact (Laws.EncodedForm.rotl32 v s h).1
  | pack32be b0 b1 b2 b3 => exact (Laws.EncodedForm.pack32be b0 b1 b2 b3 h).1
  | bxor a b => exact (Laws.EncodedForm.bxor a b h).1
  | gfmul a b => exact (Laws.EncodedForm.gfmul a b h).1
  | txt2b c => exact (Laws.EncodedForm.txt2b c h).1

@[simp] theorem encode_instr_cmd (o : Op) (c : Command) : (encode (o.instr c)).cmd = o.cmd := by cases o <;> rfl

/-- The lanes that the encoder writes for an assembled instruction are assembled to the same instruction again. -/
theorem instr_encode_instr (o : Op) {c : Command} (h : c.wf = true) : o.instr (encode (o.instr c)) = o.instr c := by
  have hlen := (Command.wf_iff c).1 h
  cases o with
  | rotl32 => rfl
  | pack32be => rfl
  | gfmul => rfl
  | bxor => simp [Op.instr, encode, Command.sa, Command.sb, hlen]
  | txt2b => simp [Op.instr, encode, Command.sa]

theorem decode_encode_instr (o : Op) {c : Command} (h : c.wf = true) :
    decode (encode (o.instr c)) = .ok (o.instr c) := by
  rw [decode_legal ((Command.op_eq_some _ o).2 (encode_instr_cmd o c)) (encode_wf (Op.instr_wf o h)),
    instr_encode_instr o h]

end Sys2Proof

namespace Sys2Proof.Machine

/-- R49: the lanes an operation reads are the operands of its instruction. -/
theorem sameReadLanes_iff (o : Op) (c d : Command) : sameReadLanes o c d ↔ o.instr c = o.instr d := by
  cases o <;> simp [sameReadLanes, Op.instr]

/-- Settles O4: decoding is operand assembly, which reads back every lane that the encoder writes. -/
theorem encodeOfDecodeKeepsReadLanes : Obligations.EncodeOfDecodeKeepsReadLanes := by
  intro c i hd
  obtain ⟨o, ho, hw, rfl⟩ := decode_eq_ok.1 hd
  have hi := Op.instr_wf o hw
  exact ⟨hi, encode_wf hi, (encode_instr_cmd o c).trans ((Command.op_eq_some c o).1 ho).symm, decode_encode_instr o hw,
    o, ho, (sameReadLanes_iff o _ c).2 (instr_encode_instr o hw)⟩

/-! ### One step -/

/-- Everything a step that answers a next state can have done: nothing on an idle port, or it served the oldest command. -/
theorem step_next_cases {s t : State} (h : step s = .next t) :
    (s.commands = [] ∧ t = s) ∨
    ∃ c rest r, s.commands = c :: rest ∧ responseTo s.maxSeqLen c = some r ∧ t.responses = s.responses ++ [r] ∧
      t.commands = rest ∧ t.maxSeqLen = s.maxSeqLen := by
  cases hc : s.commands with
  | nil =>
    rw [step_nil hc] at h
    cases h
    exact .inl ⟨rfl, rfl⟩
  | cons c rest =>
    rcases step_cons hc with ⟨r, u, hr, hu, hresp, hcmds, hmax⟩ | ⟨-, -, hf⟩
    · rw [hu] at h
      cases h
      exact .inr ⟨c, rest, r, rfl, hr, hresp, hcmds, hmax⟩
    · rw [hf] at h
      cases h

theorem Response.error_wf {cause : Status} (h : cause ≠ .ok) : (Response.error cause).Wf := by
  cases cause with
  | ok => exact absurd rfl h
  | illegalCommand => simp [Response.error, Response.Wf, Status.code]
  | lengthExceeded => simp [Response.error, Response.Wf, Status.code]

/-- The response to a well-formed command has the form of R45, R47 and R48. -/
theorem responseTo_some_wf {m : SeqBound} {c : Command} {r : Response} (hw : c.wf = true)
    (h : responseTo m c = some r) : r.Wf := by
  cases ho : c.op with
  | none =>
    rw [responseTo_illegal m ho] at h
    cases h
    exact Response.error_wf (by decide)
  | some o =>
    rw [responseTo_legal m ho hw] at h
    cases h
    exact responseOf_wf m (Op.instr_wf o hw)

/-- Settles O36: a step only takes a command from the port and adds the response to it, which is of the form of R48. -/
theorem stepKeepsInvariant : Obligations.StepKeepsInvariant := by
  rintro s t ⟨hcmds, hresps⟩ h
  rcases step_next_cases h with ⟨-, rfl⟩ | ⟨c, rest, r, hc, hr, hresp, hrest, -⟩
  · exact ⟨hcmds, hresps⟩
  · rw [hc, List.forall_mem_cons] at hcmds
    obtain ⟨hcw, hrestw⟩ := hcmds
    refine ⟨hrest ▸ hrestw, ?_⟩
    rw [hresp, List.forall_mem_append, List.forall_mem_singleton]
    exact ⟨hresps, responseTo_some_wf hcw hr⟩

/-- Settles O6: the step of the model, with the oldest command taken from the port and decoded. -/
theorem stepRunsDecodedInstruction : Obligations.StepRunsDecodedInstruction := by
  intro s c rest i hc hd
  simp only [step, takeCommand_cons hc, hd]

/-- CMD is legal exactly when the command selects an operation (R42, R54). -/
theorem cmd_legal_iff (c : Command) : c.cmd ∈ [0x01#8, 0x02#8, 0x03#8, 0x04#8, 0x05#8] ↔ c.op ≠ none := by
  rw [ne_eq, Command.op_eq_none, not_not]

/-- Settles O32: a step on an idle port does nothing, and one on a command stops exactly where the decoder finds it
malformed. -/
theorem stepStopsOnlyOnMalformedCommand : Obligations.StepStopsOnlyOnMalformedCommand := by
  intro s
  have malformed (c : Command) : c.cmd ∈ [0x01#8, 0x02#8, 0x03#8, 0x04#8, 0x05#8] ∧ c.elems.length ≠ c.la + c.lb ↔
      decode c = .error .malformedCommand := by
    rw [decode_eq_malformed, cmd_legal_iff, ← Bool.not_eq_true, Command.wf_iff]
  simp only [malformed]
  cases hc : s.commands with
  | nil => simp [step_nil hc]
  | cons c rest =>
    rcases step_cons hc with ⟨r, t, hr, ht, -⟩ | ⟨-, hd, hf⟩
    · have hd : decode c ≠ .error .malformedCommand := by
        intro hd
        simp [responseTo, hd] at hr
      simp [ht, hd]
    · simp [hf, hd, eq_comm]

/-- Settles O33: both are served with the response to the command, a function of the parameter and the command. -/
theorem responseDependsOnlyOnCommand : Obligations.ResponseDependsOnlyOnCommand := by
  intro s s' c rest rest' r hc hc' hm h
  rw [serves_iff hc, hm] at h
  exact (serves_iff hc' r).2 h

/-! ### What a host can see -/

theorem visible_eq_iff (s t : State) :
    s.visible = t.visible ↔ s.maxSeqLen = t.maxSeqLen ∧ s.commands = t.commands ∧ s.responses = t.responses := by
  simp [State.visible]

/-- A step takes states that look the same to states that look the same (R26). -/
theorem step_visible {s s' t : State} (hv : s.visible = s'.visible) (h : step s = .next t) :
    ∃ t', step s' = .next t' ∧ t.visible = t'.visible := by
  obtain ⟨hm, hc, hr⟩ := (visible_eq_iff s s').1 hv
  rcases step_next_cases h with ⟨hnil, rfl⟩ | ⟨c, rest, r, hcons, hresp, hrt, hct, hmt⟩
  · exact ⟨s', step_nil (hc ▸ hnil), hv⟩
  · have hcons' : s'.commands = c :: rest := hc ▸ hcons
    obtain ⟨t', ht', hrt', hct', hmt'⟩ := (serves_iff hcons' r).2 (hm ▸ hresp)
    refine ⟨t', ht', (visible_eq_iff t t').2 ⟨?_, ?_, ?_⟩⟩
    · rw [hmt, hm, hmt']
    · rw [hct, hct', hcons', List.tail_cons]
    · rw [hrt, hr, hrt']

/-- Settles O34, by induction on the number of steps. -/
theorem internalStateIsUnobservable : Obligations.InternalStateIsUnobservable := by
  intro n
  induction n with
  | zero =>
    intro s s' t hv h
    cases h
    exact ⟨s', rfl, hv.symm⟩
  | succ n ih =>
    intro s s' t hv h
    obtain ⟨u, hu, hrun⟩ := (run_succ n s t).1 h
    obtain ⟨u', hu', huv⟩ := step_visible hv hu
    obtain ⟨t', ht', htv⟩ := ih u u' t huv hrun
    exact ⟨t', (run_succ n s' t').2 ⟨u', hu', ht'⟩, htv⟩

/-- Settles O46: after reset the ports are empty as on a fresh block, so the next command stands first on both. -/
theorem resetAbandonsCommandInProgress : Obligations.ResetAbandonsCommandInProgress := by
  intro s
  refine ⟨rfl, rfl, rfl, fun c r => ?_⟩
  rw [serves_iff (c := c) (rest := []) rfl, serves_iff (c := c) (rest := []) rfl]
  rfl

end Sys2Proof.Machine

/-! The arithmetic of R25's function (Reference.lean): the meanings on bit vectors agree with it on natural numbers. -/

namespace Sys2Proof.Machine

/-! ### Operands and responses -/

@[simp] theorem mask8_toNat (x : Word) : (mask8 x).toNat = x.toNat % 256 := by simp [mask8]

@[simp] theorem amount_toNat (x : Word) : (amount x).toNat = x.toNat % 32 := by simp [amount]

theorem mask8_eq_ofNat (x : Word) : mask8 x = BitVec.ofNat 8 (x.toNat % 256) := by
  rw [← mask8_toNat, BitVec.ofNat_toNat, BitVec.setWidth_eq]

theorem tooLong_eq_exceeds (m : SeqBound) (n : Nat) : Reference.tooLong m n = exceeds m n := by
  cases m with
  | unbounded => rfl
  | bounded k => simp only [Reference.tooLong, exceeds, ← decide_not, Nat.not_le]

theorem scalar_eq_reference {w : Word} {n : Nat} (h : w.toNat = n) : Response.scalar w = Reference.scalar n := by
  simp [Response.scalar, Reference.scalar, Status.code, ← h]

theorem sequence_eq_reference {k : Nat} {out : List Byte} {l : List Nat} (hk : k = out.length)
    (h : out = l.map (BitVec.ofNat 8)) : Response.sequence k out = Reference.sequence l := by
  simp [Response.sequence, Reference.sequence, Status.code, hk, h]

/-! ### ROTL32, PACK32BE, BXOR, TXT2B -/

/-- R63: by amount 0 the right shift by 32 leaves nothing, so the contract needs no case for it. -/
theorem rotateLeft_eq_or (v : Word) (a : BitVec 5) :
    rotateLeft v a = (v <<< a.toNat) ||| (v >>> (32 - a.toNat)) := by
  unfold rotateLeft
  split
  case isTrue h => simp [h, BitVec.ushiftRight_eq_zero]
  case isFalse => rfl

theorem rotateLeft_toNat (v n : Word) : (rotateLeft v (amount n)).toNat = Reference.rotl v.toNat n.toNat := by
  have hlt : v.toNat >>> (32 - n.toNat % 32) < 2 ^ 32 := (Nat.shiftRight_le _ _).trans_lt v.isLt
  rw [rotateLeft_eq_or, Reference.rotl, BitVec.toNat_or, BitVec.toNat_shiftLeft, BitVec.toNat_ushiftRight, amount_toNat,
    Nat.or_mod_two_pow, Nat.mod_eq_of_lt hlt]

theorem packBigEndian_toNat (b0 b1 b2 b3 : Byte) : (packBigEndian b0 b1 b2 b3).toNat =
    b0.toNat * 2 ^ 24 + b1.toNat * 2 ^ 16 + b2.toNat * 2 ^ 8 + b3.toNat := by
  have shifted (b : Byte) {k : Nat} (hk : k ≤ 24) : (b.setWidth 32 <<< k).toNat = b.toNat <<< k := by
    rw [BitVec.toNat_shiftLeft, BitVec.toNat_setWidth_of_le (by decide), Nat.mod_eq_of_lt]
    calc b.toNat <<< k = b.toNat * 2 ^ k := Nat.shiftLeft_eq ..
      _ ≤ b.toNat * 2 ^ 24 := Nat.mul_le_mul_left _ (Nat.pow_le_pow_right (by decide) hk)
      _ < 2 ^ 32 := by have := b.isLt; omega
  have h1 := b1.isLt
  have h2 := b2.isLt
  have h3 := b3.isLt
  simp only [packBigEndian, BitVec.toNat_or, shifted, Nat.le_refl, Nat.reduceLeDiff, Nat.or_assoc,
    BitVec.toNat_setWidth_of_le]
  rw [← Nat.shiftLeft_add_eq_or_of_lt h3, ← Nat.shiftLeft_add_eq_or_of_lt (b := b2.toNat <<< 8 + b3.toNat),
    ← Nat.shiftLeft_add_eq_or_of_lt (b := b1.toNat <<< 16 + (b2.toNat <<< 8 + b3.toNat))]
  all_goals
    simp only [Nat.shiftLeft_eq]
    omega

theorem xorBytes_eq_reference (a b : SeqLane) :
    xorBytes a.elems b.elems = (Reference.bxor (Reference.nats a) (Reference.nats b)).map (BitVec.ofNat 8) := by
  apply List.ext_getElem
  · simp [xorBytes, Reference.bxor, Reference.nats]
  · intro i hi _
    obtain ⟨ha, hb⟩ : i < a.elems.length ∧ i < b.elems.length := by simpa [xorBytes] using hi
    simp [xorBytes, Reference.bxor, Reference.nats, ha, hb, mask8_eq_ofNat]

theorem maskCodepoints_eq_reference (c : SeqLane) :
    maskCodepoints c.elems = (Reference.txt2b (Reference.nats c)).map (BitVec.ofNat 8) := by
  simp [maskCodepoints, Reference.txt2b, Reference.nats, mask8_eq_ofNat]

/-! ### GFMUL: R80's closed form is linear in each operand, as the stages are -/

theorem ite_bool_xor (p q : Bool) (k : Nat) :
    (if (p ^^ q) then k else 0) = (if p then k else 0) ^^^ (if q then k else 0) := by
  cases p <;> cases q <;> simp

theorem clmul_xor_left (n a c b : Nat) :
    Reference.clmul n (a ^^^ c) b = Reference.clmul n a b ^^^ Reference.clmul n c b := by
  induction n with
  | zero => rw [Reference.clmul, Reference.clmul, Reference.clmul, Nat.xor_self]
  | succ n ih =>
    rw [Reference.clmul, Reference.clmul, Reference.clmul, ih]
    cases b.testBit n
    · simp
    · simp only [if_true, Nat.shiftLeft_xor_distrib]
      ac_rfl

theorem clmul_xor_right (n a b d : Nat) :
    Reference.clmul n a (b ^^^ d) = Reference.clmul n a b ^^^ Reference.clmul n a d := by
  induction n with
  | zero => rw [Reference.clmul, Reference.clmul, Reference.clmul, Nat.xor_self]
  | succ n ih =>
    rw [Reference.clmul, Reference.clmul, Reference.clmul, ih, Nat.testBit_xor, ite_bool_xor]
    ac_rfl

/-- One step of the division adds a multiple of the polynomial, zero or one. -/
theorem polyMod_succ (n x : Nat) :
    Reference.polyMod (n + 1) x = Reference.polyMod n (x ^^^ if x.testBit (n + 8) then 0x11B <<< n else 0) := by
  rw [Reference.polyMod]
  cases x.testBit (n + 8) <;> simp

theorem polyMod_xor (n x y : Nat) :
    Reference.polyMod n (x ^^^ y) = Reference.polyMod n x ^^^ Reference.polyMod n y := by
  induction n generalizing x y with
  | zero => rfl
  | succ n ih =>
    rw [polyMod_succ, polyMod_succ, polyMod_succ, ← ih, Nat.testBit_xor, ite_bool_xor]
    congr 1
    ac_rfl

/-- R80 on bytes: the stages add up to the carry-less product modulo 0x11B. -/
def SumIsProduct (a b : Byte) : Prop :=
  (gfSum 8 a b).toNat = Reference.polyMod 7 (Reference.clmul 8 a.toNat b.toNat)

theorem SumIsProduct.xor_left {a c b : Byte} (ha : SumIsProduct a b) (hc : SumIsProduct c b) :
    SumIsProduct (a ^^^ c) b := by
  unfold SumIsProduct at *
  rw [gfSum_xor_left, BitVec.toNat_xor, BitVec.toNat_xor, clmul_xor_left, polyMod_xor, ha, hc]

theorem SumIsProduct.xor_right {a b d : Byte} (hb : SumIsProduct a b) (hd : SumIsProduct a d) :
    SumIsProduct a (b ^^^ d) := by
  unfold SumIsProduct at *
  rw [gfSum_xor_right, BitVec.toNat_xor, BitVec.toNat_xor, clmul_xor_right, polyMod_xor, hb, hd]

theorem sumIsProduct_one_bit : ∀ i j : Fin 8, SumIsProduct (1#8 <<< i.val) (1#8 <<< j.val) := by
  unfold SumIsProduct
  decide

/-- `byte_span` without its hypothesis for 0, which is the XOR of a byte with itself. -/
theorem byte_span_of_xor {P : Byte → Prop} (hx : ∀ x y, P x → P y → P (x ^^^ y))
    (hb : ∀ i : Fin 8, P (1#8 <<< i.val)) (b : Byte) : P b :=
  byte_span (BitVec.xor_self (x := 1#8 <<< 0) ▸ hx _ _ (hb 0) (hb 0)) hx hb b

/-- Linear in each operand, so it is enough that it holds of the one-bit bytes. -/
theorem sumIsProduct (a b : Byte) : SumIsProduct a b :=
  byte_span_of_xor (P := fun x => SumIsProduct x b) (fun _ _ => SumIsProduct.xor_left)
    (fun i => byte_span_of_xor (P := SumIsProduct (1#8 <<< i.val)) (fun _ _ => SumIsProduct.xor_right)
      (sumIsProduct_one_bit i) b) a

theorem gfProduct_toNat (x y : Word) :
    ((gfStages 8 (gfStart (mask8 x) (mask8 y))).p.setWidth 32).toNat = Reference.gfmul x.toNat y.toNat := by
  rw [BitVec.toNat_setWidth_of_le (by decide), gfStart, gfStages_p, BitVec.zero_xor, sumIsProduct, mask8_toNat,
    mask8_toNat, Reference.gfmul]

/-! ### The response to a command, and a run over the port -/

/-- The response to an instruction is R25's, operation by operation. -/
theorem responseOf_instr_eq_answer (m : SeqBound) {c : Command} {o : Op} (ho : c.op = some o) (hw : c.wf = true) :
    responseOf m (o.instr c) = Reference.answer m c := by
  have hcmd := (Command.op_eq_some c o).1 ho
  have ha := (SeqLane.wf_iff _).1 (Command.sa_wf hw)
  have hb := (SeqLane.wf_iff _).1 (Command.sb_wf hw)
  unfold Reference.answer
  rw [hcmd]
  cases o with
  | rotl32 => exact scalar_eq_reference (rotateLeft_toNat c.x0 c.x1)
  | pack32be =>
    refine scalar_eq_reference ?_
    rw [packBigEndian_toNat, mask8_toNat, mask8_toNat, mask8_toNat, mask8_toNat]
    rfl
  | gfmul => exact scalar_eq_reference (gfProduct_toNat c.x0 c.x1)
  | bxor =>
    change (if exceeds m c.la || exceeds m c.lb then _ else _) =
      (if Reference.tooLong m c.la || Reference.tooLong m c.lb then _ else _)
    rw [tooLong_eq_exceeds, tooLong_eq_exceeds]
    refine ite_congr rfl (fun _ => rfl) fun _ => sequence_eq_reference ?_ (xorBytes_eq_reference c.sa c.sb)
    rw [xorBytes, List.length_zipWith, ha, hb]
  | txt2b =>
    change (if exceeds m c.la then _ else _) = (if Reference.tooLong m c.la then _ else _)
    rw [tooLong_eq_exceeds]
    refine ite_congr rfl (fun _ => rfl) fun _ => sequence_eq_reference ?_ (maskCodepoints_eq_reference c.sa)
    rw [maskCodepoints, List.length_map, ha]

theorem answer_illegal (m : SeqBound) {c : Command} (h : c.op = none) :
    Reference.answer m c = .error .illegalCommand := by
  have hcmd : c.cmd.toNat ∉ [1, 2, 3, 4, 5] := by
    simpa [← BitVec.toNat_inj] using (Command.op_eq_none c).1 h
  unfold Reference.answer
  split
  case h_6 => rfl
  all_goals
    rename_i hn
    simp [hn] at hcmd

/-- A well-formed command is answered with R25's response. -/
theorem responseTo_eq_answer (m : SeqBound) {c : Command} (hw : c.wf = true) :
    responseTo m c = some (Reference.answer m c) := by
  cases ho : c.op with
  | none => rw [responseTo_illegal m ho, answer_illegal m ho]
  | some o => rw [responseTo_legal m ho hw, responseOf_instr_eq_answer m ho hw]

/-- `n` steps answer the first `n` commands on the port, each with R25's response, and leave the others (R104). -/
theorem run_answers (n : Nat) {s : State} (hw : ∀ c ∈ s.commands, c.wf = true) (hn : n ≤ s.commands.length) :
    ∃ t, Sys2Proof.core.run n s = .next t ∧ t.commands = s.commands.drop n ∧ t.maxSeqLen = s.maxSeqLen ∧
      t.responses = s.responses ++ (s.commands.take n).map (Reference.answer s.maxSeqLen) := by
  induction n generalizing s with
  | zero => exact ⟨s, rfl, rfl, rfl, by simp⟩
  | succ n ih =>
    obtain ⟨c, rest, hc⟩ := List.exists_cons_of_length_pos (Nat.zero_lt_of_lt hn)
    rw [hc] at hn hw ⊢
    obtain ⟨hcw, hrestw⟩ := List.forall_mem_cons.1 hw
    obtain ⟨u, hu, hur, huc, hum⟩ := (serves_iff hc _).2 (responseTo_eq_answer s.maxSeqLen hcw)
    rw [hc, List.tail_cons] at huc
    obtain ⟨t, ht, htc, htm, htr⟩ := ih (huc ▸ hrestw) (huc ▸ Nat.le_of_succ_le_succ hn)
    refine ⟨t, (run_succ n s t).2 ⟨u, hu, ht⟩, ?_, htm.trans hum, ?_⟩
    · rw [htc, huc, List.drop_succ_cons]
    · rw [htr, hur, huc, hum, List.take_succ_cons, List.map_cons, List.append_assoc, List.singleton_append]

/-- Settles O39: a run of as many steps as there are commands answers each of them with R25's response. -/
theorem runAnswersEveryCommandInOrder : Obligations.RunAnswersEveryCommandInOrder := by
  rintro s ⟨hw, -⟩
  obtain ⟨t, ht, htc, htm, htr⟩ := run_answers s.commands.length hw le_rfl
  rw [List.drop_length] at htc
  rw [List.take_length] at htr
  exact ⟨t, ht, htc, htm, htr⟩

end Sys2Proof.Machine

/-! Commands in sequence (20_memory.md): what a response owes to the commands before it on the port. -/

namespace Sys2Proof.Machine

/-- Settles O35: the first command leaves its equal at the head of the port and MAX_SEQ_LEN as it was, and the response is a
function of these two. -/
theorem repeatedCommandGetsEqualResponse : Obligations.RepeatedCommandGetsEqualResponse := by
  intro s c rest hc hw
  obtain ⟨r, hr⟩ := responseTo_wf s.maxSeqLen hw
  obtain ⟨t, ht, htr, htc, htm⟩ := (serves_iff hc r).2 hr
  rw [hc, List.tail_cons] at htc
  rw [← htm] at hr
  exact ⟨r, t, ht, htr, htc, (serves_iff htc r).2 hr⟩

/-- The commands of a run from an empty response port, paired with their responses: each command stands beside R25's response
to it, whatever its place on the port. -/
theorem run_pairs_commands_with_answers {s : State} (hs : s.Inv) (hr : s.responses = []) :
    ∃ t, Sys2Proof.core.run s.commands.length s = .next t ∧
      s.commands.zip t.responses = s.commands.map fun c => (c, Reference.answer s.maxSeqLen c) := by
  obtain ⟨t, ht, -, -, htr⟩ := runAnswersEveryCommandInOrder s hs
  refine ⟨t, ht, ?_⟩
  rw [htr, hr, List.nil_append, List.map_prod_left_eq_zip]

/-- Settles O42: both runs give the pairs that one function gives of the commands, and mapping a function keeps a
permutation. -/
theorem interleavingChangesNoResponse : Obligations.InterleavingChangesNoResponse := by
  intro s s' hs hs' hm hperm hr hr'
  obtain ⟨t, ht, htz⟩ := run_pairs_commands_with_answers hs hr
  obtain ⟨t', ht', htz'⟩ := run_pairs_commands_with_answers hs' hr'
  refine ⟨t, t', ht, ht', ?_⟩
  rw [htz, htz', ← hm]
  exact hperm.map _

end Sys2Proof.Machine

/-! The encoding of commands (30_encoding.md): the opcode map, the round trip of the encoder, the illegal bytes, and the lanes
that an operation reads. -/

namespace Sys2Proof

/-! ### The round trip -/

/-- The operation of an instruction (R42). -/
def Instr.op : Instr → Op
  | .rotl32 _ _ => .rotl32
  | .pack32be _ _ _ _ => .pack32be
  | .bxor _ _ => .bxor
  | .gfmul _ _ => .gfmul
  | .txt2b _ => .txt2b

theorem encode_op (i : Instr) : (encode i).op = some i.op := by
  rw [Command.op_eq_some]
  cases i <;> rfl

/-- Operand assembly reads back what the encoder writes; for a sequence that takes its length field to be right. -/
theorem instr_encode {i : Instr} (h : i.wf = true) : i.op.instr (encode i) = i := by
  cases i with
  | rotl32 v s => rfl
  | pack32be b0 b1 b2 b3 => rfl
  | gfmul a b => rfl
  | bxor a b =>
    simp only [Instr.wf, Bool.and_eq_true, SeqLane.wf_iff] at h
    obtain ⟨ha, hb⟩ := h
    simp [Instr.op, Op.instr, encode, Command.sa, Command.sb, List.take_left' ha.symm, List.drop_left' ha.symm,
      List.take_of_length_le hb.ge]
  | txt2b c =>
    simp only [Instr.wf, SeqLane.wf_iff] at h
    simp [Instr.op, Op.instr, encode, Command.sa, List.take_of_length_le h.ge]

/-- Settles O3: the encoder's command is well formed and selects the instruction's operation, whose operand assembly reads
the operands back. -/
theorem decodeOfEncodeIsIdentity : Obligations.DecodeOfEncodeIsIdentity := by
  intro i hi
  rw [decode_legal (encode_op i) (encode_wf hi), instr_encode hi]

/-! ### The opcode map -/

/-- Settles O2: a row's mask is all ones and its pattern is the CMD of its operation, by which the decoder selects. -/
theorem decoderFollowsOpcodeTable : Obligations.DecoderFollowsOpcodeTable := by
  have rows : ∀ o : Op, ∀ b : Byte, (∃ row ∈ opTable, row.op = o ∧ b &&& row.mask = row.pattern) ↔ b = o.cmd := by
    intro o
    cases o <;> decide
  constructor
  · intro c o
    rw [Command.op_eq_some, rows]
  · decide

/-- Settles O1: one command per operation, and CMD 0x09, by evaluation of the decoder. -/
theorem specCommandsDecode : Obligations.SpecCommandsDecode := by
  unfold Obligations.SpecCommandsDecode
  decide

/-- The decoder finds a command illegal exactly when its CMD selects nothing; no lane is examined (R89). -/
theorem decode_eq_illegal {c : Command} : decode c = .error .illegalCommand ↔ c.op = none := by
  unfold decode
  cases c.op with
  | none => simp
  | some o => by_cases hw : c.wf = true <;> simp [hw]

end Sys2Proof

namespace Sys2Proof.Machine

/-- The legal bytes are those with RSV zero and OPC 1 to 5 (R41, R42, R54). -/
theorem illegal_byte_iff : ∀ b : Byte, b ∉ [0x01#8, 0x02#8, 0x03#8, 0x04#8, 0x05#8] ↔
    b = 0x00#8 ∨ b = 0x06#8 ∨ b = 0x07#8 ∨ b.extractLsb' 3 5 ≠ 0#5 := by decide

/-- R54's count of the illegal bytes. -/
theorem illegal_byte_count :
    ((List.range 256).filter fun n => BitVec.ofNat 8 n ∉ [0x01#8, 0x02#8, 0x03#8, 0x04#8, 0x05#8]).length = 251 := by
  decide +kernel

/-- Settles O5: an illegal CMD selects nothing, so the decoder rejects the command and the step answers it. -/
theorem illegalCommandsAreAnswered : Obligations.IllegalCommandsAreAnswered := by
  refine ⟨fun c => ?_, illegal_byte_iff, illegal_byte_count, fun s c rest hc hcmd => ?_⟩
  · rw [decode_eq_illegal, Command.op_eq_none]
  · exact (serves_iff hc _).2 (responseTo_illegal _ ((Command.op_eq_none c).2 hcmd))

/-! ### The response to a command, by what its CMD selects -/

/-- Everything a response can come from: an illegal CMD, or a well-formed command that selects an operation. -/
theorem responseTo_cases {m : SeqBound} {c : Command} {r : Response} (h : responseTo m c = some r) :
    (c.op = none ∧ r = .error .illegalCommand) ∨
    ∃ o, c.op = some o ∧ c.wf = true ∧ r = responseOf m (o.instr c) := by
  cases ho : c.op with
  | none =>
    rw [responseTo_illegal m ho] at h
    cases h
    exact .inl ⟨rfl, rfl⟩
  | some o =>
    cases hw : c.wf with
    | false => simp [responseTo, decode_malformed ho hw] at h
    | true =>
      rw [responseTo_legal m ho hw] at h
      cases h
      exact .inr ⟨o, rfl, rfl, rfl⟩

/-- Settles O7: the response is that to the assembled instruction, which holds the lanes that the operation reads. -/
theorem ignoredLanesDoNotAffectResponse : Obligations.IgnoredLanesDoNotAffectResponse := by
  intro s s' c c' rest rest' o r hc hc' hm ho ho' hw' hsame h
  rw [serves_iff hc] at h
  rcases responseTo_cases h with ⟨hnone, -⟩ | ⟨o₁, ho₁, -, rfl⟩
  · rw [ho] at hnone
    cases hnone
  · rw [ho] at ho₁
    cases ho₁
    rw [serves_iff hc', responseTo_legal _ ho' hw', ← hm, (sameReadLanes_iff o c c').1 hsame]

/-- R48: ROTL32, PACK32BE and GFMUL write no sequence. -/
theorem responseOf_instr_no_sequence (m : SeqBound) (o : Op) (c : Command)
    (h : o.cmd = 0x01#8 ∨ o.cmd = 0x02#8 ∨ o.cmd = 0x04#8) :
    (responseOf m (o.instr c)).lr = 0 ∧ (responseOf m (o.instr c)).rs = [] := by
  cases o with
  | rotl32 => exact ⟨rfl, rfl⟩
  | pack32be => exact ⟨rfl, rfl⟩
  | gfmul => exact ⟨rfl, rfl⟩
  | bxor => exact absurd h (by decide)
  | txt2b => exact absurd h (by decide)

/-- R48: BXOR and TXT2B write no scalar, in their OK responses and in their error responses. -/
theorem responseOf_instr_no_scalar (m : SeqBound) (o : Op) (c : Command) (h : o.cmd = 0x03#8 ∨ o.cmd = 0x05#8) :
    (responseOf m (o.instr c)).r = 0#32 := by
  cases o with
  | rotl32 => exact absurd h (by decide)
  | pack32be => exact absurd h (by decide)
  | gfmul => exact absurd h (by decide)
  | bxor =>
    simp only [Op.instr, responseOf]
    split <;> rfl
  | txt2b =>
    simp only [Op.instr, responseOf]
    split <;> rfl

/-- Settles O30: the step served the command, with the fixed error response or with the response to a well-formed
instruction. -/
theorem everyResponseIsFullyDetermined : Obligations.EveryResponseIsFullyDetermined := by
  intro s t c rest hc ht
  rcases step_next_cases ht with ⟨hnil, -⟩ | ⟨c', rest', r, hc', hr, hresp, hrest, -⟩
  · rw [hc] at hnil
    cases hnil
  · rw [hc] at hc'
    cases hc'
    rcases responseTo_cases hr with ⟨-, rfl⟩ | ⟨o, ho, hw, rfl⟩
    · exact ⟨_, hresp, hrest, .inr (.inl rfl), rfl, fun _ => ⟨rfl, rfl, rfl⟩, fun _ => ⟨rfl, rfl⟩, fun _ => rfl⟩
    · obtain ⟨hst, hlr, herr, -⟩ := responseOf_wf s.maxSeqLen (Op.instr_wf o hw)
      rw [(Command.op_eq_some c o).1 ho]
      refine ⟨_, hresp, hrest, hst, hlr, fun h => ?_, responseOf_instr_no_sequence _ o c,
        responseOf_instr_no_scalar _ o c⟩
      obtain ⟨hzero, hnil⟩ := herr h
      exact ⟨hzero, by rw [hlr, hnil, List.length_nil], hnil⟩

/-! ### Operand lanes -/

/-- R51, R57: the byte read from an integer's lane is the integer mod 256. -/
theorem mask8_lane_toNat (n : Int) : ((mask8 (lane n)).toNat : Int) = n % 256 := by
  simp only [mask8_toNat, lane, BitVec.toNat_ofInt]
  omega

theorem mask8_lane (n : Int) : mask8 (lane n) = BitVec.ofInt 8 n := by
  apply BitVec.eq_of_toNat_eq
  have h := mask8_lane_toNat n
  rw [BitVec.toNat_ofInt]
  omega

@[simp] theorem mask8_lane_emod (n : Int) : mask8 (lane (n % 256)) = mask8 (lane n) := by
  apply BitVec.eq_of_toNat_eq
  have h := mask8_lane_toNat n
  have h' := mask8_lane_toNat (n % 256)
  omega

theorem xorBytes_lane_emod (f g : List Int) :
    xorBytes ((f.map (· % 256)).map lane) ((g.map (· % 256)).map lane) = xorBytes (f.map lane) (g.map lane) := by
  simp [xorBytes, List.zipWith_map]

theorem maskCodepoints_lane_emod (f : List Int) :
    maskCodepoints ((f.map (· % 256)).map lane) = maskCodepoints (f.map lane) := by
  simp [maskCodepoints]

/-- BXOR sees of its operands the lengths and the bytes only. -/
theorem execBxor_congr {a b a' b' : SeqLane} (ha : a.len = a'.len) (hb : b.len = b'.len)
    (hx : xorBytes a.elems b.elems = xorBytes a'.elems b'.elems) (s : State) : execBxor a b s = execBxor a' b' s := by
  rw [execBxor, execBxor, ha, hb, hx]

/-- TXT2B sees of its operand the length and the bytes only. -/
theorem execTxt2b_congr {c c' : SeqLane} (hc : c.len = c'.len) (hx : maskCodepoints c.elems = maskCodepoints c'.elems)
    (s : State) : execTxt2b c s = execTxt2b c' s := by
  rw [execTxt2b, execTxt2b, hc, hx]

theorem seqLane_emod_len (f : List Int) : (seqLane f).len = (seqLane (f.map (· % 256))).len := by simp [seqLane]

/-- Settles O27: each meaning reads its byte lanes through `mask8`, and a list's lanes one by one, which leaves its length. -/
theorem byteLanesAreMaskedNotRejected : Obligations.ByteLanesAreMaskedNotRejected := by
  refine ⟨mask8_lane_toNat, fun f g h k s => ?_, fun f g s => ?_, fun f g s => ?_, fun f s => ?_⟩
  · simp only [exec, execPack32be, mask8_lane_emod]
  · simp only [exec, execGfmul, mask8_lane_emod]
  · exact execBxor_congr (seqLane_emod_len f) (seqLane_emod_len g) (xorBytes_lane_emod f g).symm s
  · exact execTxt2b_congr (seqLane_emod_len f) (maskCodepoints_lane_emod f).symm s

/-- R50, R62: the amount read from an integer's lane is the integer mod 32. -/
theorem amount_lane_toNat (n : Int) : ((amount (lane n)).toNat : Int) = n % 32 := by
  simp only [amount_toNat, lane, BitVec.toNat_ofInt]
  omega

theorem amount_setWidth_amount (x : Word) : amount ((amount x).setWidth 32) = amount x := by
  apply BitVec.eq_of_toNat_eq
  simp

/-- Settles O9: the lane is the lane of its own two's complement reading, and 32 divides 2^32. -/
theorem rotationAmountIsTrueModulo : Obligations.RotationAmountIsTrueModulo := by
  refine ⟨fun x => ⟨rfl, Nat.le_of_lt_succ (amount x).isLt, amount_toNat x, ?_⟩, amount_lane_toNat, fun v x s => ?_⟩
  · rw [← amount_lane_toNat, lane, BitVec.ofInt_toInt]
  · simp only [exec, execRotl32, amount_setWidth_amount]

/-! ### The assembler -/

/-- Settles O47: the encoder's rows, and the lane of an integer as the word of its residue. -/
theorem assemblerEncodesMnemonics : Obligations.AssemblerEncodesMnemonics := by
  refine ⟨fun n => ?_, fun _ _ => rfl, fun _ _ _ _ => rfl, fun _ _ => rfl, fun _ _ => rfl, fun _ => rfl, fun _ => rfl⟩
  apply BitVec.eq_of_toNat_eq
  simp only [lane, BitVec.toNat_ofInt, BitVec.toNat_ofNat]
  omega

theorem responseTo_encode (m : SeqBound) {i : Instr} (h : i.wf = true) :
    responseTo m (encode i) = some (responseOf m i) := by
  rw [responseTo_legal m (encode_op i) (encode_wf h), instr_encode h]

/-- The encoder's command of a well-formed instruction is served with the response to the instruction. -/
theorem serves_encode {s : State} {i : Instr} {rest : List Command} (hc : s.commands = encode i :: rest)
    (h : i.wf = true) : Serves s (responseOf s.maxSeqLen i) :=
  (serves_iff hc _).2 (responseTo_encode s.maxSeqLen h)

/-- R66: rotation moves each bit of v to the left by the amount, round the end of the word. -/
theorem getLsbD_rotateLeft (v : Word) (a : BitVec 5) {i : Nat} (hi : i < 32) :
    (rotateLeft v a).getLsbD i = v.getLsbD (((i : Int) - a.toNat) % 32).toNat := by
  have ha := a.isLt
  rw [rotateLeft_eq_or, ← BitVec.rotateLeftAux, ← BitVec.rotateLeft_eq_rotateLeftAux_of_lt ha,
    BitVec.getLsbD_rotateLeft_of_le ha]
  by_cases hlt : i < a.toNat
  · have hsrc : (((i : Int) - a.toNat) % 32).toNat = 32 - a.toNat + i := by omega
    simp [hlt, hsrc]
  · have hsrc : (((i : Int) - a.toNat) % 32).toNat = i - a.toNat := by omega
    simp [hlt, hi, hsrc]

/-- A field that the end of the word cuts neither before nor after the rotation moves whole. -/
theorem extractLsb'_rotateLeft (v : Word) (a : BitVec 5) {p q len : Nat} (hp : p + len ≤ 32) (hq : q + len ≤ 32)
    (h : ((p : Int) - a.toNat) % 32 = q) : (rotateLeft v a).extractLsb' p len = v.extractLsb' q len := by
  refine BitVec.eq_of_getLsbD_eq fun i hi => ?_
  rw [BitVec.getLsbD_extractLsb', BitVec.getLsbD_extractLsb', getLsbD_rotateLeft v a (by omega)]
  congr 2
  omega

/-- Settles O48: the expansion is a left rotation by −n, which takes bit i + n to bit i. -/
theorem rotr32RotatesRight : Obligations.Rotr32RotatesRight := by
  intro v n s rest hc
  refine ⟨_, serves_encode (i := .rotl32 (lane v) (lane (-n))) hc rfl, fun i hi => ?_⟩
  rw [getLsbD_rotateLeft _ _ hi, amount_lane_toNat, Int.sub_emod_emod, sub_neg_eq_add]

/-- Settles O49: the expansion is a left rotation by 8, which moves the two fields whole. -/
theorem rotwordRotatesOneByte : Obligations.RotwordRotatesOneByte := by
  intro v s rest hc
  exact ⟨_, serves_encode (i := .rotl32 (lane v) (lane 8)) hc rfl,
    extractLsb'_rotateLeft _ _ (by decide) (by decide) (by decide),
    extractLsb'_rotateLeft _ _ (by decide) (by decide) (by decide)⟩

/-- R77: of the stages of a product with x = 0x02 only the second adds anything, the multiplicand doubled once. -/
theorem gfSum_two (a : Byte) : gfSum 8 a 0x02#8 = gfDouble a := by simp [gfSum]

/-- Settles O50: the expansion is a GFMUL by 0x02, and the doubling of a stage is the shift with its reduction. -/
theorem xtimeDoubles : Obligations.XtimeDoubles := by
  intro a s rest hc
  have htwo : mask8 (lane 2) = 0x02#8 := by decide
  have h := serves_encode (i := .gfmul (lane a) (lane 2)) hc rfl
  rw [responseOf, gfStart, gfStages_p, BitVec.zero_xor, mask8_lane, htwo, gfSum_two] at h
  exact h

theorem seqLane_wf (xs : List Int) : (seqLane xs).wf = true := by simp [seqLane]

/-- A scalar value's lane has the value's low byte (R53). -/
theorem mask8_lane_natCast (n : Nat) : mask8 (lane (n : Int)) = BitVec.ofNat 8 n := by
  rw [mask8_lane, BitVec.ofInt_natCast]

/-- Settles O51: the expansion is a TXT2B of the scalar values, as many as the text has characters. -/
theorem textBecomesLowBytes : Obligations.TextBecomesLowBytes := by
  intro text s rest hm hc
  have hlen := (exceeds_eq_false_iff _ _).2 hm
  have hresp : responseOf s.maxSeqLen (.txt2b (seqLane (text.map fun ch => (ch.toNat : Int)))) =
      .sequence text.length (text.map fun ch => BitVec.ofNat 8 ch.toNat) := by
    simp [responseOf, seqLane, hlen, maskCodepoints, mask8_lane_natCast, Function.comp_def]
  have h := serves_encode (i := .txt2b (seqLane (text.map fun ch => (ch.toNat : Int)))) hc (seqLane_wf _)
  rw [hresp] at h
  exact h

end Sys2Proof.Machine

/-! ROTL32 (40_bitrotate32.md): the contract, where each bit goes, and rotations one after the other. -/

namespace Sys2Proof.Machine

/-- What ROTL32 yields (R61, R64): later proofs need only the laws of `rotateLeft`. -/
theorem yieldsWord_rotl32 (v x : Word) (s : State) : YieldsWord (.rotl32 v x) s (rotateLeft v (amount x)) :=
  (yieldsWord_iff _ s _).2 rfl

/-- Settles O8: the response is R25's, whose right shift and left shift go by X1 mod 32, and 32 divides 2^32. -/
theorem rotl32MeetsContract : Obligations.Rotl32MeetsContract := by
  intro s c rest n hc hw hcmd hx1
  have hamt : c.x1.toNat % 32 = (n % 32).toNat := by
    rw [hx1, BitVec.toNat_ofNat]
    omega
  rw [serves_iff hc, responseTo_eq_answer _ hw, Reference.answer, hcmd, ← hamt]
  rfl

/-! ### The number of set bits -/

/-- The sources of the bits, from the lowest bit up, are the bit numbers rotated as a list. -/
theorem map_rotation_source (a : BitVec 5) :
    ((List.range 32).map fun i : Nat => (((i : Int) - a.toNat) % 32).toNat) = (List.range 32).rotate (32 - a.toNat) := by
  have ha := a.isLt
  apply List.ext_getElem
  · simp
  · intro i hi _
    simp only [List.getElem_map, List.getElem_range, List.getElem_rotate, List.length_range]
    omega

/-- R66: rotation leaves the number of set bits, since it permutes the bit numbers. -/
theorem countP_getLsbD_rotateLeft (v : Word) (a : BitVec 5) :
    (List.range 32).countP (rotateLeft v a).getLsbD = (List.range 32).countP v.getLsbD :=
  calc (List.range 32).countP (rotateLeft v a).getLsbD
      = (List.range 32).countP (v.getLsbD ∘ fun i : Nat => (((i : Int) - a.toNat) % 32).toNat) :=
        List.countP_congr fun i hi => by rw [getLsbD_rotateLeft v a (List.mem_range.1 hi), Function.comp_apply]
    _ = ((List.range 32).rotate (32 - a.toNat)).countP v.getLsbD := by rw [← List.countP_map, map_rotation_source]
    _ = (List.range 32).countP v.getLsbD := (List.rotate_perm _ _).countP_eq _

/-- Settles O10: where each bit comes from, and that every bit of v has its place in the result. -/
theorem rotl32MovesEachBit : Obligations.Rotl32MovesEachBit := fun v x s =>
  ⟨_, yieldsWord_rotl32 v x s, fun _ hi => getLsbD_rotateLeft v (amount x) hi, countP_getLsbD_rotateLeft v (amount x)⟩

/-! ### Rotations one after the other -/

/-- R66 for an integer amount: its lane's normalisation does not show in where a bit comes from. -/
theorem getLsbD_rotateLeft_lane (v : Word) (n : Int) {i : Nat} (hi : i < 32) :
    (rotateLeft v (amount (lane n))).getLsbD i = v.getLsbD (((i : Int) - n) % 32).toNat := by
  rw [getLsbD_rotateLeft v _ hi, amount_lane_toNat, Int.sub_emod_emod]

/-- R66: the two displacements of each bit add up, round the end of the word. -/
theorem rotateLeft_lane_add (v : Word) (m n : Int) :
    rotateLeft (rotateLeft v (amount (lane m))) (amount (lane n)) = rotateLeft v (amount (lane (m + n))) := by
  refine BitVec.eq_of_getLsbD_eq fun i hi => ?_
  rw [getLsbD_rotateLeft_lane _ n hi, getLsbD_rotateLeft_lane v m (by omega), getLsbD_rotateLeft_lane v (m + n) hi]
  congr 2
  omega

/-- R62: an integer that 32 divides is no rotation. -/
theorem rotateLeft_lane_of_emod_eq_zero (v : Word) {n : Int} (h : n % 32 = 0) : rotateLeft v (amount (lane n)) = v := by
  have hzero : amount (lane n) = 0#5 := by
    apply BitVec.eq_of_toNat_eq
    have hn := amount_lane_toNat n
    rw [BitVec.toNat_zero]
    omega
  rw [hzero, rotateLeft, if_pos rfl]

/-- Settles O11: both ways each bit is displaced by m + n. -/
theorem rotl32Composes : Obligations.Rotl32Composes := by
  intro v m n s t
  refine ⟨_, _, yieldsWord_rotl32 v (lane m) s, yieldsWord_rotl32 _ (lane n) t, ?_⟩
  rw [rotateLeft_lane_add]
  exact yieldsWord_rotl32 v (lane (m + n)) s

/-- Settles O12: the two amounts add up to a multiple of 32. -/
theorem rotl32IsInvertible : Obligations.Rotl32IsInvertible := by
  intro v n s t
  have hback : rotateLeft (rotateLeft v (amount (lane n))) (amount (lane (32 - n % 32))) = v := by
    rw [rotateLeft_lane_add]
    exact rotateLeft_lane_of_emod_eq_zero v (by omega)
  have hyields := yieldsWord_rotl32 (rotateLeft v (amount (lane n))) (lane (32 - n % 32)) t
  rw [hback] at hyields
  exact ⟨_, yieldsWord_rotl32 v (lane n) s, hyields⟩

end Sys2Proof.Machine

/-! PACK32BE (41_bytepack32be.md): the fields of the packed word, and the word as the shifted lanes. -/

namespace Sys2Proof.Machine

/-- PACK32BE yields the packed low bytes of its lanes and no other word (R67, R69). -/
theorem yieldsWord_pack32be_iff (b0 b1 b2 b3 : Word) (s : State) (w : Word) :
    YieldsWord (.pack32be b0 b1 b2 b3) s w ↔ w = packBigEndian (mask8 b0) (mask8 b1) (mask8 b2) (mask8 b3) := by
  rw [yieldsWord_iff]
  simp [responseOf, Response.scalar, Status.code]

/-- R68, R70: a word is packed from its four fields and from no other bytes, since the digits of a number in base 256 are
unique. -/
theorem eq_packBigEndian_iff (w : Word) (b0 b1 b2 b3 : Byte) : w = packBigEndian b0 b1 b2 b3 ↔
    b0 = w.extractLsb' 24 8 ∧ b1 = w.extractLsb' 16 8 ∧ b2 = w.extractLsb' 8 8 ∧ b3 = w.extractLsb' 0 8 := by
  simp only [← BitVec.toNat_inj, packBigEndian_toNat, BitVec.extractLsb'_toNat, Nat.shiftRight_eq_div_pow]
  omega

/-- Settles O13: the digits of the packed word are the lanes mod 256, and its fields are the bytes it is packed from. -/
theorem pack32beIsBigEndian : Obligations.Pack32beIsBigEndian := by
  intro s c rest hc hw hcmd
  have hop : c.op = some .pack32be := (Command.op_eq_some c _).2 hcmd
  obtain ⟨h0, h1, h2, h3⟩ := (eq_packBigEndian_iff _ (mask8 c.x0) (mask8 c.x1) (mask8 c.x2) (mask8 c.x3)).1 rfl
  refine ⟨_, (serves_iff hc _).2 (responseTo_legal _ hop hw), ?_, h0.symm, h1.symm, h2.symm, h3.symm⟩
  simp only [packBigEndian_toNat, mask8_toNat]

/-- R51: masking a lane in place is reading its byte and zero-extending it. -/
theorem setWidth_mask8 (x : Word) : (mask8 x).setWidth 32 = x &&& 0xFF#32 := by
  apply BitVec.eq_of_toNat_eq
  rw [BitVec.toNat_setWidth_of_le (by decide), mask8_toNat, BitVec.toNat_and]
  exact (Nat.and_two_pow_sub_one_eq_mod _ 8).symm

/-- Settles O14: the contract's word, each of its bytes zero-extended by masking the lane. -/
theorem pack32beCompletes : Obligations.Pack32beCompletes := by
  intro b0 b1 b2 b3 s
  rw [yieldsWord_pack32be_iff, packBigEndian, setWidth_mask8, setWidth_mask8, setWidth_mask8, setWidth_mask8]

/-- R51: a byte survives its own zero-extension. -/
@[simp] theorem mask8_setWidth (b : Byte) : mask8 (b.setWidth 32) = b := by
  apply BitVec.eq_of_toNat_eq
  rw [mask8_toNat, BitVec.toNat_setWidth_of_le (by decide), Nat.mod_eq_of_lt b.isLt]

/-- Settles O15: the word yielded is packed from the operands themselves, and a word is packed from its fields only. -/
theorem pack32beIsBijectionOnBytes : Obligations.Pack32beIsBijectionOnBytes := by
  intro w s b0 b1 b2 b3
  rw [yieldsWord_pack32be_iff, mask8_setWidth, mask8_setWidth, mask8_setWidth, mask8_setWidth, eq_packBigEndian_iff]

end Sys2Proof.Machine

/-! BXOR (42_bytexor.md): the response by the length check, and the bytes one by one. -/

namespace Sys2Proof.Machine

/-! ### The response -/

/-- R71: within the bound BXOR is answered with the bytes. -/
theorem responseOf_bxor_of_within {m : SeqBound} {a b : SeqLane} (ha : Within m a.len) (hb : Within m b.len) :
    responseOf m (.bxor a b) = .sequence (min a.len b.len) (xorBytes a.elems b.elems) := by
  rw [← exceeds_eq_false_iff] at ha hb
  simp [responseOf, ha, hb]

/-- R71, R90: one sequence beyond the bound is enough for LENGTH_EXCEEDED. -/
theorem responseOf_bxor_of_not_within {m : SeqBound} {a b : SeqLane} (h : ¬(Within m a.len ∧ Within m b.len)) :
    responseOf m (.bxor a b) = .error .lengthExceeded := by
  simp only [← exceeds_eq_false_iff, not_and_or, Bool.not_eq_false, ← Bool.or_eq_true] at h
  exact if_pos h

/-- R72 for well-formed sequences: as many bytes as the shorter length field says. -/
theorem length_xorBytes_of_wf {a b : SeqLane} (ha : a.wf = true) (hb : b.wf = true) :
    (xorBytes a.elems b.elems).length = min a.len b.len := by
  rw [xorBytes, List.length_zipWith, (SeqLane.wf_iff a).1 ha, (SeqLane.wf_iff b).1 hb]

/-- What BXOR yields (R71, R72): later proofs need only the laws of `xorBytes`. -/
theorem yieldsBytes_bxor {a b : SeqLane} {s : State} (ha : a.wf = true) (hb : b.wf = true)
    (hma : Within s.maxSeqLen a.len) (hmb : Within s.maxSeqLen b.len) :
    YieldsBytes (.bxor a b) s (xorBytes a.elems b.elems) := by
  rw [yieldsBytes_iff, responseOf_bxor_of_within hma hmb, length_xorBytes_of_wf ha hb]
  rfl

/-! ### The bytes -/

/-- R73: a byte of the result, as an operand's element is missing or not. -/
theorem getElem?_xorBytes (a b : List Word) (i : Nat) :
    (xorBytes a b)[i]? = Option.map₂ (fun x y => mask8 x ^^^ mask8 y) a[i]? b[i]? := by
  rw [xorBytes, List.getElem?_zipWith]
  cases a[i]? <;> cases b[i]? <;> rfl

/-- R71: each byte below the shorter length is the XOR of the masked elements at its index. -/
theorem getElem?_xorBytes_of_wf {a b : SeqLane} (ha : a.wf = true) (hb : b.wf = true) {i : Nat}
    (hi : i < min a.len b.len) : (xorBytes a.elems b.elems)[i]? =
      some (mask8 (a.elems.getD i 0#32) ^^^ mask8 (b.elems.getD i 0#32)) := by
  rw [(SeqLane.wf_iff a).1 ha, (SeqLane.wf_iff b).1 hb, lt_min_iff] at hi
  obtain ⟨hia, hib⟩ := hi
  simp [getElem?_xorBytes, hia, hib]

/-- Settles O17: what a BXOR within the bound yields, and its bytes one by one. -/
theorem bxorCompletes : Obligations.BxorCompletes := fun _ _ _ ha hb hma hmb =>
  ⟨_, yieldsBytes_bxor ha hb hma hmb, length_xorBytes_of_wf ha hb, fun _ hi => getElem?_xorBytes_of_wf ha hb hi⟩

/-- R56: the elements of SA are the first ones presented. -/
theorem getD_sa {c : Command} {i : Nat} (hi : i < c.la) (d : Word) : c.sa.elems.getD i d = c.elems.getD i d := by
  simp [Command.sa, List.getD_eq_getElem?_getD, hi]

/-- R56: the elements of SB follow those of SA. -/
theorem getD_sb {c : Command} {i : Nat} (hi : i < c.lb) (d : Word) :
    c.sb.elems.getD i d = c.elems.getD (c.la + i) d := by
  simp [Command.sb, List.getD_eq_getElem?_getD, hi]

/-- Settles O16: the response to the BXOR of SA and SB, by the length check, with both operands' elements found in the
variable part. -/
theorem bxorMeetsContract : Obligations.BxorMeetsContract := by
  intro s c rest hc hw hcmd
  have ha := Command.sa_wf hw
  have hb := Command.sb_wf hw
  have hserves : Serves s (responseOf s.maxSeqLen (.bxor c.sa c.sb)) :=
    (serves_iff hc _).2 (responseTo_legal _ ((Command.op_eq_some c .bxor).2 hcmd) hw)
  constructor
  · rintro ⟨hla, hlb⟩
    have hlen : (xorBytes c.sa.elems c.sb.elems).length = min c.la c.lb := length_xorBytes_of_wf ha hb
    rw [responseOf_bxor_of_within (a := c.sa) (b := c.sb) hla hlb] at hserves
    refine ⟨xorBytes c.sa.elems c.sb.elems, hlen ▸ hserves, hlen, fun i hi => ?_⟩
    obtain ⟨hia, hib⟩ := lt_min_iff.1 hi
    rw [getElem?_xorBytes_of_wf ha hb hi, getD_sa hia, getD_sb hib]
    rfl
  · intro hlong
    rw [responseOf_bxor_of_not_within (a := c.sa) (b := c.sb) hlong] at hserves
    exact hserves

/-! ### The laws of BXOR -/

theorem xorBytes_comm (a b : List Word) : xorBytes a b = xorBytes b a :=
  List.zipWith_comm_of_comm fun _ _ => BitVec.xor_comm _ _

/-- Settles O19: the response is the same, since the length check, min and XOR are commutative. -/
theorem bxorCommutes : Obligations.BxorCommutes := by
  intro a b s
  have hcomm : responseOf s.maxSeqLen (.bxor a b) = responseOf s.maxSeqLen (.bxor b a) := by
    simp only [responseOf, Bool.or_comm, min_comm, xorBytes_comm]
  obtain ⟨t, ht, hat⟩ := exec_answers (.bxor a b) s
  obtain ⟨u, hu, hbu⟩ := exec_answers (.bxor b a) s
  exact ⟨_, t, u, ht, hat, hu, hcomm ▸ hbu⟩

/-- R74, C5: where b is long enough its bytes cancel, and a comes back masked. -/
theorem xorBytes_xorBytes_cancel {a b : List Word} (h : a.length ≤ b.length) :
    xorBytes ((xorBytes a b).map (BitVec.setWidth 32)) b = a.map mask8 := by
  apply List.ext_getElem
  · simpa [xorBytes] using h
  · intro i _ _
    simp only [xorBytes, List.getElem_zipWith, List.getElem_map, mask8_setWidth, BitVec.xor_assoc, BitVec.xor_self,
      BitVec.xor_zero]

/-- C5: masking changes no element that is a byte. -/
theorem setWidth_mask8_of_lt {x : Word} (h : x.toNat < 256) : (mask8 x).setWidth 32 = x := by
  apply BitVec.eq_of_toNat_eq
  rw [BitVec.toNat_setWidth_of_le (by decide), mask8_toNat, Nat.mod_eq_of_lt h]

/-- Settles O18: both BXORs complete, the second on as many elements as a has, and the bytes of b cancel. -/
theorem bxorIsSelfInverse : Obligations.BxorIsSelfInverse := by
  intro a b s t ha hb hle hs ht
  have hlen : (xorBytes a.elems b.elems).length = a.len := by rw [length_xorBytes_of_wf ha hb, min_eq_left hle]
  have hcancel : xorBytes ((xorBytes a.elems b.elems).map (BitVec.setWidth 32)) b.elems = a.elems.map mask8 :=
    xorBytes_xorBytes_cancel (by rwa [← (SeqLane.wf_iff a).1 ha, ← (SeqLane.wf_iff b).1 hb])
  refine ⟨_, _, yieldsBytes_bxor ha hb (fun k hk => hle.trans (hs k hk)) hs,
    yieldsBytes_bxor (by simp) hb (fun k hk => hlen.trans_le (hle.trans (ht k hk))) ht, hlen, hcancel, fun hbytes => ?_⟩
  rw [hcancel, List.map_map]
  exact (List.map_congr_left fun e he => setWidth_mask8_of_lt (hbytes e he)).trans (List.map_id _)

/-- A BXOR that completes yields the bytes and nothing else (R71), whatever the length fields say. -/
theorem eq_xorBytes_of_yieldsBytes {a b : SeqLane} {s : State} {x : List Byte} (h : YieldsBytes (.bxor a b) s x) :
    x = xorBytes a.elems b.elems := by
  rw [yieldsBytes_iff] at h
  rcases em (Within s.maxSeqLen a.len ∧ Within s.maxSeqLen b.len) with ⟨hma, hmb⟩ | hlong
  · rw [responseOf_bxor_of_within hma hmb] at h
    exact congrArg Response.rs h
  · rw [responseOf_bxor_of_not_within hlong] at h
    have hst : (0x00#8 : Byte) = 0x02#8 := congrArg Response.st h
    exact absurd hst (by decide)

/-- Settles O20: a byte of the result is a function of the two elements at its index. -/
theorem bxorLanesAreIndependent : Obligations.BxorLanesAreIndependent := by
  intro a b a' b' s s' x x' i hx hx' ha hb
  rw [eq_xorBytes_of_yieldsBytes hx, eq_xorBytes_of_yieldsBytes hx', getElem?_xorBytes, getElem?_xorBytes, ha, hb]

end Sys2Proof.Machine

/-! GFMUL (43_gf256multiply.md): the stage equations, the product modulo the polynomial, and the laws of the field. -/

namespace Sys2Proof.Machine

/-- GFMUL yields the zero-extended sum of its eight stages and no other word (R79, R82). -/
theorem yieldsWord_gfmul_iff (x y : Word) (s : State) (w : Word) :
    YieldsWord (.gfmul x y) s w ↔ w = (gfSum 8 (mask8 x) (mask8 y)).setWidth 32 := by
  rw [yieldsWord_iff]
  simp [responseOf, Response.scalar, Status.code, gfStart, gfStages_p]

/-! ### The stages and the closed form -/

/-- A sequence that obeys the stage equations (R77) is the run of the stages from its first element. -/
theorem gfStages_eq_of_stage_eqs {g : Nat → GfStage} {n : Nat} (h : ∀ k < n, g (k + 1) = gfStage (g k)) :
    gfStages n (g 0) = g n := by
  induction n with
  | zero => rfl
  | succ n ih => rw [gfStages_succ_last, ih fun k hk => h k (Nat.lt_succ_of_lt hk), h n n.lt_succ_self]

/-- Settles O21: the triples of p, a and b are the run of the stages from the masked operands. -/
theorem gfmulRunsEightStages : Obligations.GfmulRunsEightStages := by
  intro s c rest p a b hc hw hcmd hp0 ha0 hb0 hp ha hb
  have hrun : gfStages 8 (GfStage.mk (p 0) (a 0) (b 0)) = GfStage.mk (p 8) (a 8) (b 8) :=
    gfStages_eq_of_stage_eqs (g := fun k => GfStage.mk (p k) (a k) (b k)) fun k hk => by
      rw [hp k hk, ha k hk, hb k hk, gfStage, reductionConstant]
  have hresp := responseTo_legal s.maxSeqLen ((Command.op_eq_some c .gfmul).2 hcmd) hw
  rw [hp0, ha0, hb0] at hrun
  rw [Op.instr, responseOf, gfStart, mask8, mask8, hrun] at hresp
  exact (serves_iff hc _).2 hresp

/-- Settles O22: the word is a byte zero-extended. -/
theorem gfmulCompletes : Obligations.GfmulCompletes := by
  intro x y s
  refine ⟨_, (yieldsWord_gfmul_iff x y s _).2 rfl, ?_⟩
  apply BitVec.eq_of_toNat_eq
  rw [BitVec.extractLsb'_toNat, BitVec.toNat_setWidth_of_le (by decide), Nat.shiftRight_eq_zero _ _ (BitVec.isLt _),
    Nat.zero_mod, BitVec.toNat_zero]

/-- R80 for the lanes. -/
theorem gfSum_mask8_toNat (x y : Word) :
    (gfSum 8 (mask8 x) (mask8 y)).toNat = Reference.gfmul x.toNat y.toNat := by
  rw [sumIsProduct, mask8_toNat, mask8_toNat, Reference.gfmul]

/-- Settles O23: the sum of the stages is the reduced product, which is a byte. -/
theorem gfmulIsProductModuloPolynomial : Obligations.GfmulIsProductModuloPolynomial := by
  intro x y s
  rw [yieldsWord_gfmul_iff, ← gfSum_mask8_toNat]
  exact ⟨BitVec.ofNat_toNat .., BitVec.isLt _⟩

/-! ### Linear maps of bytes -/

/-- A map of bytes that is linear over GF(2). -/
def XorLinear (f : Byte → Byte) : Prop := ∀ x y, f (x ^^^ y) = f x ^^^ f y

theorem XorLinear.comp {f g : Byte → Byte} (hf : XorLinear f) (hg : XorLinear g) : XorLinear fun x => f (g x) :=
  fun x y => (congrArg f (hg x y)).trans (hf _ _)

theorem XorLinear.iterate {f : Byte → Byte} (hf : XorLinear f) : ∀ n, XorLinear f^[n]
  | 0 => fun _ _ => rfl
  | n + 1 => (hf.iterate n).comp hf

/-- Linear maps that agree on the one-bit bytes are equal. -/
theorem XorLinear.eq_of_one_bit {f g : Byte → Byte} (hf : XorLinear f) (hg : XorLinear g)
    (h : ∀ i : Fin 8, f (1#8 <<< i.val) = g (1#8 <<< i.val)) (b : Byte) : f b = g b :=
  byte_span_of_xor (P := fun x => f x = g x) (fun x y hx hy => by rw [hf, hg, hx, hy]) h b

theorem xorLinear_gfSum_left (b : Byte) : XorLinear fun a => gfSum 8 a b := fun a c => gfSum_xor_left 8 a c b

theorem xorLinear_gfSum_right (a : Byte) : XorLinear fun b => gfSum 8 a b := gfSum_xor_right 8 a

/-! ### The laws of the product -/

theorem gfSum_zero (n : Nat) (a : Byte) : gfSum n a 0#8 = 0#8 := by
  simpa using gfSum_xor_right n a 0#8 0#8

/-- R77: of the stages of a product with 0x01 only the first adds anything. -/
theorem gfSum_one (a : Byte) : gfSum 8 a 1#8 = a := by simp [gfSum]

theorem gfSum_comm_one_bit : ∀ i j : Fin 8,
    gfSum 8 (1#8 <<< i.val) (1#8 <<< j.val) = gfSum 8 (1#8 <<< j.val) (1#8 <<< i.val) := by decide

/-- R81: both sides are linear in each operand. -/
theorem gfSum_comm (a b : Byte) : gfSum 8 a b = gfSum 8 b a :=
  (xorLinear_gfSum_left b).eq_of_one_bit (xorLinear_gfSum_right b) (fun i =>
    (xorLinear_gfSum_right _).eq_of_one_bit (xorLinear_gfSum_left _) (gfSum_comm_one_bit i) b) a

theorem gfSum_assoc_one_bit : ∀ i j k : Fin 8,
    gfSum 8 (gfSum 8 (1#8 <<< i.val) (1#8 <<< j.val)) (1#8 <<< k.val) =
      gfSum 8 (1#8 <<< i.val) (gfSum 8 (1#8 <<< j.val) (1#8 <<< k.val)) := by decide

/-- Both sides are linear in each of the three operands. -/
theorem gfSum_assoc (a b c : Byte) : gfSum 8 (gfSum 8 a b) c = gfSum 8 a (gfSum 8 b c) :=
  ((xorLinear_gfSum_left c).comp (xorLinear_gfSum_left b)).eq_of_one_bit (xorLinear_gfSum_left _) (fun i =>
    ((xorLinear_gfSum_left c).comp (xorLinear_gfSum_right _)).eq_of_one_bit
      ((xorLinear_gfSum_right _).comp (xorLinear_gfSum_left c)) (fun j =>
        (xorLinear_gfSum_right _).eq_of_one_bit ((xorLinear_gfSum_right _).comp (xorLinear_gfSum_right _))
          (gfSum_assoc_one_bit i j) c) b) a

/-! ### The inverse of a byte

Squaring is linear, so on the one-bit bytes one sees that a^256 = a. Then a^255 is its own square; 0 and 1 are the only such
bytes, and a^255 = 0 would give a = a · a^255 = 0. So a · a^254 = 1. -/

/-- a^2, a map whose iterates are a^(2^n). -/
def gfSquare (a : Byte) : Byte := gfSum 8 a a

/-- The mixed products cancel. -/
theorem xorLinear_gfSquare : XorLinear gfSquare := by
  intro x y
  rw [gfSquare, gfSum_xor_left, gfSum_xor_right, gfSum_xor_right, gfSum_comm y x, BitVec.xor_assoc, xor_cancel_left,
    gfSquare, gfSquare]

theorem gfSquare_iterate_eight_one_bit : ∀ i : Fin 8, gfSquare^[8] (1#8 <<< i.val) = id (1#8 <<< i.val) := by decide

/-- a^256 = a. -/
theorem gfSquare_iterate_eight (a : Byte) : gfSquare^[8] a = a :=
  (xorLinear_gfSquare.iterate 8).eq_of_one_bit (g := id) (fun _ _ => rfl) gfSquare_iterate_eight_one_bit a

theorem eq_zero_or_one_of_gfSquare_eq_self : ∀ e : Byte, gfSquare e = e → e = 0#8 ∨ e = 1#8 := by decide

/-- The product of `a` and its repeated squares, `n` factors: a^(2^n − 1). -/
def gfNorm : Nat → Byte → Byte
  | 0, _ => 1#8
  | n + 1, a => gfSum 8 a (gfNorm n (gfSquare a))

/-- One more factor `a` makes every factor the next one: a · a^(2^n − 1) = a^(2^n). -/
theorem gfSum_gfNorm (n : Nat) (a : Byte) : gfSum 8 a (gfNorm n a) = gfSquare^[n] a := by
  induction n generalizing a with
  | zero => exact gfSum_one a
  | succ n ih =>
    rw [gfNorm, ← gfSum_assoc]
    exact ih (gfSquare a)

/-- a · a^255 = a. -/
theorem gfSum_gfNorm_eight (a : Byte) : gfSum 8 a (gfNorm 8 a) = a :=
  (gfSum_gfNorm 8 a).trans (gfSquare_iterate_eight a)

/-- a^255 is its own square: one of its two factors a is absorbed by a · a^255 = a. -/
theorem gfSquare_gfNorm_eight (a : Byte) : gfSquare (gfNorm 8 a) = gfNorm 8 a :=
  calc gfSum 8 (gfSum 8 a (gfNorm 7 (gfSquare a))) (gfNorm 8 a)
      = gfSum 8 (gfNorm 7 (gfSquare a)) (gfSum 8 a (gfNorm 8 a)) := by rw [gfSum_comm a, gfSum_assoc]
    _ = gfSum 8 a (gfNorm 7 (gfSquare a)) := by rw [gfSum_gfNorm_eight, gfSum_comm]

/-- R81: a^254 is the inverse of a. -/
theorem gfSum_inverse {a : Byte} (ha : a ≠ 0#8) : gfSum 8 a (gfNorm 7 (gfSquare a)) = 1#8 := by
  rcases eq_zero_or_one_of_gfSquare_eq_self _ (gfSquare_gfNorm_eight a) with hzero | hone
  · have hfix := gfSum_gfNorm_eight a
    rw [hzero, gfSum_zero] at hfix
    exact absurd hfix.symm ha
  · exact hone

/-- Settles O24: the laws of the product of bytes, each on the masked lanes. -/
theorem gfmulObeysFieldLaws : Obligations.GfmulObeysFieldLaws := by
  intro s x y
  have hzero : mask8 0#32 = 0#8 := rfl
  have hone : mask8 1#32 = 1#8 := rfl
  simp only [yieldsWord_gfmul_iff]
  refine ⟨⟨_, rfl, by rw [gfSum_comm]⟩, ?_, ?_, fun hx => ⟨(gfNorm 7 (gfSquare (mask8 x))).setWidth 32, ?_⟩, by decide⟩
  · rw [hzero, gfSum_zero, BitVec.setWidth_zero]
  · rw [hone, gfSum_comm, gfSum_one, setWidth_mask8]
  · rw [mask8_setWidth, gfSum_inverse (a := mask8 x) hx]
    rfl

end Sys2Proof.Machine

/-! TXT2B (44_texttobytes.md): the response by the length check of LA, and the bytes one by one. -/

namespace Sys2Proof.Machine

/-! ### The response -/

/-- R84: within the bound TXT2B is answered with the masked codepoints. -/
theorem responseOf_txt2b_of_within {m : SeqBound} {c : SeqLane} (h : Within m c.len) :
    responseOf m (.txt2b c) = .sequence c.len (maskCodepoints c.elems) := by
  rw [← exceeds_eq_false_iff] at h
  simp [responseOf, h]

/-- R84, R90: beyond the bound TXT2B is answered with LENGTH_EXCEEDED. -/
theorem responseOf_txt2b_of_not_within {m : SeqBound} {c : SeqLane} (h : ¬Within m c.len) :
    responseOf m (.txt2b c) = .error .lengthExceeded := by
  rw [← exceeds_eq_false_iff, Bool.not_eq_false] at h
  exact if_pos h

/-! ### The bytes -/

/-- R85 for a well-formed sequence: as many bytes as its length field says. -/
theorem length_maskCodepoints_of_wf {c : SeqLane} (hc : c.wf = true) : (maskCodepoints c.elems).length = c.len := by
  rw [maskCodepoints, List.length_map, (SeqLane.wf_iff c).1 hc]

/-- R84: each byte below the length is the low byte of the codepoint at its index. -/
theorem getElem?_maskCodepoints_of_wf {c : SeqLane} (hc : c.wf = true) {i : Nat} (hi : i < c.len) :
    (maskCodepoints c.elems)[i]? = some (mask8 (c.elems.getD i 0#32)) := by
  rw [(SeqLane.wf_iff c).1 hc] at hi
  simp [maskCodepoints, hi]

/-- What TXT2B yields (R84, R85). -/
theorem yieldsBytes_txt2b {c : SeqLane} {s : State} (hc : c.wf = true) (hm : Within s.maxSeqLen c.len) :
    YieldsBytes (.txt2b c) s (maskCodepoints c.elems) := by
  rw [yieldsBytes_iff, responseOf_txt2b_of_within hm, length_maskCodepoints_of_wf hc]
  rfl

/-- Settles O26: what a TXT2B within the bound yields, and its bytes one by one, as numbers. -/
theorem txt2bCompletes : Obligations.Txt2bCompletes := by
  intro c s hc hm
  refine ⟨_, yieldsBytes_txt2b hc hm, length_maskCodepoints_of_wf hc, fun i hi => ?_⟩
  rw [getElem?_maskCodepoints_of_wf hc hi, Option.map_some, mask8_toNat]

/-- Settles O25: the response to the TXT2B of SA, by the length check, with the codepoints found in the variable part. -/
theorem txt2bMasksEachCodepoint : Obligations.Txt2bMasksEachCodepoint := by
  intro s c rest hc hw hcmd
  have hsa := Command.sa_wf hw
  have hserves : Serves s (responseOf s.maxSeqLen (.txt2b c.sa)) :=
    (serves_iff hc _).2 (responseTo_legal _ ((Command.op_eq_some c .txt2b).2 hcmd) hw)
  constructor
  · intro hla
    have hlen : (maskCodepoints c.sa.elems).length = c.la := length_maskCodepoints_of_wf hsa
    rw [responseOf_txt2b_of_within (c := c.sa) hla] at hserves
    refine ⟨maskCodepoints c.sa.elems, hlen ▸ hserves, hlen, fun i hi => ?_⟩
    rw [getElem?_maskCodepoints_of_wf hsa hi, getD_sa hi, mask8]
  · intro hlong
    rw [responseOf_txt2b_of_not_within (c := c.sa) hlong] at hserves
    exact hserves

end Sys2Proof.Machine

/-! Errors (60_exceptions.md): which check decides the status of a response, and runs in which every check passes. -/

namespace Sys2Proof.Machine

/-! ### The length check of an instruction -/

/-- R90: no sequence that the instruction reads is longer than MAX_SEQ_LEN. -/
def ReadsWithin (m : SeqBound) : Instr → Prop
  | .rotl32 _ _ => True
  | .pack32be _ _ _ _ => True
  | .bxor a b => Within m a.len ∧ Within m b.len
  | .gfmul _ _ => True
  | .txt2b c => Within m c.len

theorem not_within_of_lt {m : SeqBound} {k n : Nat} (hm : m = .bounded k) (h : k < n) : ¬Within m n :=
  fun hw => h.not_ge (hw k hm)

/-- R90: an over-long sequence that is read decides the whole response. -/
theorem responseOf_of_not_readsWithin {m : SeqBound} {i : Instr} (h : ¬ReadsWithin m i) :
    responseOf m i = .error .lengthExceeded := by
  cases i with
  | rotl32 v n => exact absurd trivial h
  | pack32be b0 b1 b2 b3 => exact absurd trivial h
  | bxor a b => exact responseOf_bxor_of_not_within h
  | gfmul a b => exact absurd trivial h
  | txt2b c => exact responseOf_txt2b_of_not_within h

/-- R92: after the length check nothing fails. -/
theorem responseOf_st_of_readsWithin {m : SeqBound} {i : Instr} (h : ReadsWithin m i) :
    (responseOf m i).st = 0x00#8 := by
  cases i with
  | rotl32 v n => rfl
  | pack32be b0 b1 b2 b3 => rfl
  | bxor a b =>
    obtain ⟨ha, hb⟩ := h
    rw [responseOf_bxor_of_within ha hb]
    rfl
  | gfmul a b => rfl
  | txt2b c =>
    rw [responseOf_txt2b_of_within h]
    rfl

theorem yieldsError_of_not_readsWithin {i : Instr} {s : State} (h : ¬ReadsWithin s.maxSeqLen i) :
    YieldsError i s 0x02#8 :=
  (yieldsError_iff i s _).2 (responseOf_of_not_readsWithin h).symm

/-- Settles O28: the sequences are read by BXOR and TXT2B only, and within the bound each operation yields its result. -/
theorem lengthExceededExactly : Obligations.LengthExceededExactly := by
  refine ⟨fun a b s k hk hlong => yieldsError_of_not_readsWithin (not_and_or.2 ?_),
    fun c s k hk hlong => yieldsError_of_not_readsWithin (i := .txt2b c) (not_within_of_lt hk hlong),
    fun v n b0 b1 b2 b3 x y s => ⟨⟨_, yieldsWord_rotl32 v n s⟩, ⟨_, (yieldsWord_pack32be_iff b0 b1 b2 b3 s _).2 rfl⟩,
      ⟨_, (yieldsWord_gfmul_iff x y s _).2 rfl⟩⟩,
    fun a b s ha hb hma hmb => ⟨_, yieldsBytes_bxor ha hb hma hmb⟩,
    fun c s hc hm => ⟨_, yieldsBytes_txt2b hc hm⟩, fun n k hk => nomatch hk⟩
  exact hlong.imp (not_within_of_lt hk) (not_within_of_lt hk)

/-! ### The status of a response, check by check (R92) -/

section
variable {m : SeqBound} {c : Command} {o : Op} {r : Response}

theorem responseTo_st_of_illegal (ho : c.op = none) (hr : responseTo m c = some r) : r.st = 0x01#8 := by
  rw [responseTo_illegal m ho] at hr
  cases hr
  rfl

theorem responseTo_st_of_not_readsWithin (ho : c.op = some o) (hw : c.wf = true) (hr : responseTo m c = some r)
    (h : ¬ReadsWithin m (o.instr c)) : r.st = 0x02#8 := by
  rw [responseTo_legal m ho hw, responseOf_of_not_readsWithin h] at hr
  cases hr
  rfl

theorem responseTo_st_of_readsWithin (ho : c.op = some o) (hw : c.wf = true) (hr : responseTo m c = some r)
    (h : ReadsWithin m (o.instr c)) : r.st = 0x00#8 := by
  rw [responseTo_legal m ho hw] at hr
  cases hr
  exact responseOf_st_of_readsWithin h

end

/-- R54: 0x00 and the bytes above 0x05 are no operation's. -/
theorem illegal_byte_of_zero_or_above : ∀ b : Byte, b = 0x00#8 ∨ 0x05#8 < b →
    b ∉ [0x01#8, 0x02#8, 0x03#8, 0x04#8, 0x05#8] := by decide

/-- Settles O29: a well-formed command is served, and what CMD selects says which check decides the status. -/
theorem checksAreMadeInOrder : Obligations.ChecksAreMadeInOrder := by
  intro s c rest hc hw
  obtain ⟨r, hr⟩ := responseTo_wf s.maxSeqLen hw
  have selects (o : Op) : c.cmd = o.cmd → c.op = some o := (Command.op_eq_some c o).2
  have exceeded {o : Op} (ho : c.op = some o) := responseTo_st_of_not_readsWithin ho hw hr
  have succeeds {o : Op} (ho : c.op = some o) := responseTo_st_of_readsWithin ho hw hr
  refine ⟨r, (serves_iff hc r).2 hr, fun h => ?_, fun h hlong => ?_, fun h hlong => ?_, ?_⟩
  · exact responseTo_st_of_illegal ((Command.op_eq_none c).2 (illegal_byte_of_zero_or_above _ h)) hr
  · exact exceeded (selects .bxor h) (not_and_or.2 hlong)
  · exact exceeded (selects .txt2b h) hlong
  · rintro (h | h | h | ⟨h, hlens⟩ | ⟨h, hla⟩)
    · exact succeeds (selects .rotl32 h) trivial
    · exact succeeds (selects .pack32be h) trivial
    · exact succeeds (selects .gfmul h) trivial
    · exact succeeds (selects .bxor h) hlens
    · exact succeeds (selects .txt2b h) hla

/-! ### What a step leaves for the next command -/

/-- Settles O31: the step leaves the next command at the head of the port and MAX_SEQ_LEN as it was, and its response is a
function of these two. -/
theorem errorResponseHasNoLaterEffect : Obligations.ErrorResponseHasNoLaterEffect := by
  intro s t c d rest e r hc ht _ _
  have hport : t.commands = d :: rest := by
    rcases step_next_cases ht with ⟨hnil, -⟩ | ⟨c', rest', r', hc', -, -, hrest, -⟩
    · rw [hc] at hnil
      cases hnil
    · rw [hc] at hc'
      cases hc'
      exact hrest
  rw [serves_iff hport, step_maxSeqLen ht, serves_iff (c := d) (rest := rest) rfl]

/-- Settles O44: the step of an idle port. -/
theorem idleStepChangesNothing : Obligations.IdleStepChangesNothing := fun _ h => step_nil h

/-! ### Runs of legal commands -/

/-- A command whose two sequences are within the bound reads none beyond it, whatever it selects. -/
theorem readsWithin_instr {m : SeqBound} {c : Command} (o : Op) (hla : Within m c.la) (hlb : Within m c.lb) :
    ReadsWithin m (o.instr c) := by
  cases o with
  | rotl32 => trivial
  | pack32be => trivial
  | bxor => exact ⟨hla, hlb⟩
  | gfmul => trivial
  | txt2b => exact hla

/-- R93: R25's response to a legal command within the bound is no error response. -/
theorem answer_st_ok {m : SeqBound} {c : Command} (hw : c.wf = true)
    (hcmd : c.cmd ∈ [0x01#8, 0x02#8, 0x03#8, 0x04#8, 0x05#8]) (hla : Within m c.la) (hlb : Within m c.lb) :
    (Reference.answer m c).st = 0x00#8 := by
  obtain ⟨o, ho⟩ := Option.ne_none_iff_exists'.1 ((cmd_legal_iff c).1 hcmd)
  exact responseTo_st_of_readsWithin ho hw (responseTo_eq_answer m hw) (readsWithin_instr o hla hlb)

/-- Settles O40: the run adds R25's response to each command, none of which is an error response. -/
theorem legalCommandsRunWithoutErrorResponse : Obligations.LegalCommandsRunWithoutErrorResponse := by
  intro s hs hok hlegal
  obtain ⟨t, ht, htc, -, htr⟩ := runAnswersEveryCommandInOrder s hs
  obtain ⟨hw, -⟩ := hs
  refine ⟨t, ht, htc, ?_⟩
  unfold State.NoErrorResponse
  rw [htr, List.forall_mem_append, List.forall_mem_map]
  refine ⟨hok, fun c hc => ?_⟩
  obtain ⟨hcmd, hla, hlb⟩ := hlegal c hc
  exact answer_st_ok (hw c hc) hcmd hla hlb

end Sys2Proof.Machine

/-! Progress and reset (70_reset_and_hazards.md): every command is answered, and the ports after reset and after a host's
actions. -/

namespace Sys2Proof.Machine

/-- Settles O41: in `n` steps the first `n` commands are taken and as many responses added. -/
theorem everyCommandCompletes : Obligations.EveryCommandCompletes := by
  rintro s n ⟨hw, -⟩ hn
  obtain ⟨t, ht, htc, -, htr⟩ := run_answers n hw hn
  refine ⟨t, ht, htc, ?_⟩
  rw [htr, List.length_append, List.length_map, List.length_take_of_le hn]

/-- A well-formed command presented on an idle port is in progress at once, and is served with R25's response. -/
theorem serves_present_of_idle {s : State} {c : Command} (hs : s.commands = []) (hw : c.wf = true) :
    Serves (s.host (.present c)) (Reference.answer s.maxSeqLen c) := by
  have hport : (s.host (.present c)).commands = [c] := by rw [State.host_present_commands, hs, List.nil_append]
  rw [serves_iff hport, State.host_present_maxSeqLen]
  exact responseTo_eq_answer s.maxSeqLen hw

/-- Settles O45: the port after reset is idle, so the first command presented is served as on every idle port. -/
theorem resetLeavesPortsEmpty : Obligations.ResetLeavesPortsEmpty :=
  ⟨rfl, rfl, fun m => ⟨State.resetOf_commands m, State.resetOf_responses m, State.resetOf_maxSeqLen m,
    fun _ hw => serves_present_of_idle (State.resetOf_commands m) hw⟩⟩

/-- With both ports empty there is nothing that the invariant could find ill formed. -/
theorem State.inv_of_empty_ports {s : State} (hc : s.commands = []) (hr : s.responses = []) : s.Inv :=
  ⟨hc ▸ List.forall_mem_nil _, hr ▸ List.forall_mem_nil _⟩

theorem State.resetOf_inv (m : SeqBound) : (State.resetOf m).Inv :=
  State.inv_of_empty_ports (State.resetOf_commands m) (State.resetOf_responses m)

/-- Settles O37: both ports are empty after reset of every instance. -/
theorem resetMeetsInvariant : Obligations.ResetMeetsInvariant :=
  ⟨State.resetOf_inv Config.maxSeqLen, State.resetOf_inv⟩

/-- Settles O38: presenting adds one command, which is well formed; collecting only drops a response; reset empties both
ports. -/
theorem hostActionsKeepInvariant : Obligations.HostActionsKeepInvariant := by
  rintro a s ⟨hcmds, hresps⟩ ha
  cases a with
  | present c =>
    refine ⟨?_, hresps⟩
    rw [State.host_present_commands, List.forall_mem_append, List.forall_mem_singleton]
    exact ⟨hcmds, ha c rfl⟩
  | collect => exact ⟨hcmds, fun r hr => hresps r (List.mem_of_mem_tail hr)⟩
  | reset => exact State.inv_of_empty_ports (State.host_reset_commands s) (State.host_reset_responses s)

end Sys2Proof.Machine
